-- ==== Sys2Proof/Word.lean ====
section
/-! DEFINITION. Words of the machine and the three-valued level (00_scope.md R10, R11, R14; 30_encoding.md R100). -/

namespace Sys2Proof

/-- A command word, 32 bits (R100, R107). -/
abbrev CmdWord := BitVec 32

/-- The serialized address word, 16 bits (R101). -/
abbrev AddrWord := BitVec 16

/-- An address, 15 bits (R101, R118). -/
abbrev Addr := BitVec 15

/-- A data byte (R105). -/
abbrev Byte := BitVec 8

/-- A pin level or a register bit: `0`, `1` or `⊥` (R11). -/
inductive Level where
  | low
  | high
  /-- `⊥`: never driven, floating, or unknown after power-up. -/
  | undef
  deriving DecidableEq, Repr, Inhabited

/-- A register of `n` bits that may hold `⊥`; entry `i` is bit `i` (R10, R11). -/
abbrev LVec (n : Nat) := Vector Level n

/-- The twelve pins by role (R14). -/
inductive Pin where
  | sdata
  | sclk
  | slatch
  /-- `D<i>`, the data pin of bit `i` (R61). -/
  | d (i : Fin 8)
  | we
  deriving DecidableEq, Repr

/-- The mode of a pin (R28). -/
inductive PinMode where
  | input
  | output
  deriving DecidableEq, Repr, Inhabited

end Sys2Proof
end

