-- ==== Sys2Proof/Syntax.lean ====
section
/-! DEFINITION. The six commands (30_encoding.md R110, opcode_table.json) and the assembler's commands (R115). -/

namespace Sys2Proof

/-- One constructor per row of the opcode table; the operand widths are those of R118. -/
inductive Instr where
  /-- SETADDR (R133): `rw` is 1 for read, 0 for write. -/
  | setaddr (addr : Addr) (rw : Bool)
  /-- BUSIN (R151). -/
  | busin
  /-- BUSOUT (R152). -/
  | busout
  /-- WEPULSE (R154). -/
  | wepulse
  /-- READ (R182). -/
  | read (addr : Addr)
  /-- WRITE (R183). -/
  | write (addr : Addr) (data : Byte)
  deriving DecidableEq, Repr

/-- The rows of the opcode map by name (R110). -/
inductive Opcode where
  | setaddr
  | busin
  | busout
  | wepulse
  | read
  | write
  deriving DecidableEq, Repr

/-- The row a command belongs to. -/
def Instr.opcode : Instr → Opcode
  | .setaddr _ _ => .setaddr
  | .busin => .busin
  | .busout => .busout
  | .wepulse => .wepulse
  | .read _ => .read
  | .write _ _ => .write

/-- A command as an assembler line gives it: its numbers are not yet bounded (R115). -/
inductive AsmCmd where
  | setaddr (addr : Nat) (rw : Bool)
  | busin
  | busout
  | wepulse
  | read (addr : Nat)
  | write (addr : Nat) (data : Nat)
  deriving DecidableEq, Repr

end Sys2Proof
end

