-- ==== Sys2Proof/WellFormed.lean ====
section
/-! DEFINITION. What is well formed: an assembler command's numbers (30_encoding.md R115) and a command word's fields
(R109, R112). A term of `Instr` has operands of the encoded widths, so every term of it is encodable. The check of a
configuration (00_scope.md R8) is `Params.WellFormed` in Sys2Proof/Config.lean. -/

namespace Sys2Proof

/-- The numbers of an assembler command are in range: addresses in 0 .. 0x7FFF, data in 0 .. 0xFF (R115). -/
def AsmCmd.WellFormed : AsmCmd → Bool
  | .setaddr addr _ => decide (addr ≤ 0x7FFF)
  | .busin => true
  | .busout => true
  | .wepulse => true
  | .read addr => decide (addr ≤ 0x7FFF)
  | .write addr data => decide (addr ≤ 0x7FFF) && decide (data ≤ 0xFF)

/-- A command word is legal, field by field: none of the five cases of R112 holds. -/
def LegalWord (w : CmdWord) : Bool :=
  let op := w.extractLsb' 28 4
  let rsv1 := w.extractLsb' 25 3
  let f := w.getLsbD 24
  let data := w.extractLsb' 16 8
  let rsv0 := w.getLsbD 15
  let addr := w.extractLsb' 0 15
  (decide (1 ≤ op.toNat) && decide (op.toNat ≤ 6)) &&
  (rsv1 == 0#3 && !rsv0) &&
  (op == 1#4 || !f) &&
  (op == 6#4 || data == 0#8) &&
  (op == 1#4 || op == 5#4 || op == 6#4 || addr == 0#15)

end Sys2Proof
end

