-- ==== Sys2Proof/Decode.lean ====
section
/-! DEFINITION. Decoding and encoding of command words (30_encoding.md R107 to R112, R118) and the assembler's text
form (R115). -/

namespace Sys2Proof

/-- OP (R108). -/
def fieldOp (w : CmdWord) : BitVec 4 := w.extractLsb' 28 4
/-- RSV1 (R108). -/
def fieldRsv1 (w : CmdWord) : BitVec 3 := w.extractLsb' 25 3
/-- F (R108). -/
def fieldF (w : CmdWord) : Bool := w.getLsbD 24
/-- DATA (R108). -/
def fieldData (w : CmdWord) : Byte := w.extractLsb' 16 8
/-- RSV0 (R108). -/
def fieldRsv0 (w : CmdWord) : Bool := w.getLsbD 15
/-- ADDR (R108). -/
def fieldAddr (w : CmdWord) : Addr := w.extractLsb' 0 15

/-- The opcode number of a row (R110). -/
def Opcode.code : Opcode → BitVec 4
  | .setaddr => 0x1
  | .busin => 0x2
  | .busout => 0x3
  | .wepulse => 0x4
  | .read => 0x5
  | .write => 0x6

/-- One row of the opcode map: a word matches when it equals `pattern` under `mask` (R110, R111). -/
structure OpRow where
  opcode : Opcode
  pattern : CmdWord
  mask : CmdWord
  deriving DecidableEq, Repr

/-- The opcode map (R110). -/
def opcodeMap : List OpRow :=
  [ ⟨.setaddr, 0x10000000, 0xFEFF8000⟩,
    ⟨.busin, 0x20000000, 0xFFFFFFFF⟩,
    ⟨.busout, 0x30000000, 0xFFFFFFFF⟩,
    ⟨.wepulse, 0x40000000, 0xFFFFFFFF⟩,
    ⟨.read, 0x50000000, 0xFFFF8000⟩,
    ⟨.write, 0x60000000, 0xFF008000⟩ ]

/-- A word matches a row under the row's mask (R109, R111). -/
def OpRow.matchesWord (r : OpRow) (w : CmdWord) : Bool := w &&& r.mask == r.pattern

/-- The command of a row with the operands of `w` (R118). -/
def operandsOf (w : CmdWord) : Opcode → Instr
  | .setaddr => .setaddr (fieldAddr w) (fieldF w)
  | .busin => .busin
  | .busout => .busout
  | .wepulse => .wepulse
  | .read => .read (fieldAddr w)
  | .write => .write (fieldAddr w) (fieldData w)

/-- Why a word is illegal: the five cases of R112, by name. -/
inductive IllegalReason where
  /-- OP is 0x0 or 0x7 .. 0xF. -/
  | unassignedOpcode
  /-- RSV1 or RSV0 is not zero. -/
  | reservedNonzero
  /-- F is not zero in a command other than SETADDR. -/
  | flagNonzero
  /-- DATA is not zero in a command other than WRITE. -/
  | dataNonzero
  /-- ADDR is not zero in BUSIN, BUSOUT or WEPULSE. -/
  | addrNonzero
  deriving DecidableEq, Repr

/-- What decoding answers (R111). -/
inductive Decoded where
  | cmd (i : Instr)
  | illegal (why : IllegalReason)
  deriving DecidableEq, Repr

/-- The first case of R112, in its order, that a word no row matches falls under. -/
def illegalReason (w : CmdWord) : IllegalReason :=
  if (fieldOp w).toNat = 0 ∨ 7 ≤ (fieldOp w).toNat then .unassignedOpcode
  else if fieldRsv1 w ≠ 0 ∨ fieldRsv0 w = true then .reservedNonzero
  else if fieldF w = true ∧ fieldOp w ≠ Opcode.setaddr.code then .flagNonzero
  else if fieldData w ≠ 0 ∧ fieldOp w ≠ Opcode.write.code then .dataNonzero
  else .addrNonzero

/-- `Decode(w)`, total on every word (R111). -/
def decode (w : CmdWord) : Decoded :=
  match opcodeMap.find? (·.matchesWord w) with
  | some r => .cmd (operandsOf w r.opcode)
  | none => .illegal (illegalReason w)

/-- The word with the given fields (R107). -/
def packWord (op : BitVec 4) (f : Bool) (data : Byte) (addr : Addr) : CmdWord :=
  op ++ 0#3 ++ BitVec.ofBool f ++ data ++ 0#1 ++ addr

/-- The word of a command, from the bit patterns of R110. -/
def encode : Instr → CmdWord
  | .setaddr addr rw => packWord Opcode.setaddr.code rw 0 addr
  | .busin => packWord Opcode.busin.code false 0 0
  | .busout => packWord Opcode.busout.code false 0 0
  | .wepulse => packWord Opcode.wepulse.code false 0 0
  | .read addr => packWord Opcode.read.code false 0 addr
  | .write addr data => packWord Opcode.write.code false data addr

/-- The host's question: what the decoder reads from a 32-bit word whose low `nbits` bits are those of `w` and whose
other bits are zero. -/
def decodeTableWord (nbits w : Nat) : Option Instr :=
  match decode (BitVec.ofNat 32 (w % 2 ^ nbits)) with
  | .cmd i => some i
  | .illegal _ => none

/-! ### The assembler (R115) -/

/-- The command of an assembler command whose numbers are in range; out of range is an error, never truncated. -/
def AsmCmd.assemble (c : AsmCmd) : Option Instr :=
  if c.WellFormed then
    match c with
    | .setaddr addr rw => some (.setaddr (BitVec.ofNat 15 addr) rw)
    | .busin => some .busin
    | .busout => some .busout
    | .wepulse => some .wepulse
    | .read addr => some (.read (BitVec.ofNat 15 addr))
    | .write addr data => some (.write (BitVec.ofNat 15 addr) (BitVec.ofNat 8 data))
  else none

/-- The value of a digit in base 10 or 16. -/
def digitValue (c : Char) : Option Nat :=
  if '0' ≤ c ∧ c ≤ '9' then some (c.toNat - '0'.toNat)
  else if 'a' ≤ c ∧ c ≤ 'f' then some (c.toNat - 'a'.toNat + 10)
  else if 'A' ≤ c ∧ c ≤ 'F' then some (c.toNat - 'A'.toNat + 10)
  else none

/-- The number written by digits of the given base, most significant first, after `acc`. -/
def digitsValue (base : Nat) (acc : Nat) : List Char → Option Nat
  | [] => some acc
  | c :: cs =>
    match digitValue c with
    | some v => if v < base then digitsValue base (acc * base + v) cs else none
    | none => none

/-- A decimal or `0x`-hex number (R115). -/
def parseNumber : List Char → Option Nat
  | [] => none
  | '0' :: 'x' :: [] => none
  | '0' :: 'x' :: cs => digitsValue 16 0 cs
  | cs => digitsValue 10 0 cs

/-- Blanks between the words of a line. -/
def isBlank (c : Char) : Bool := c = ' ' || c = '\t' || c = '\r' || c = '\n'

/-- The words of a line: blanks separate them, a comma is a word of its own. -/
def lexWords (word : List Char) : List Char → List (List Char)
  | [] => if word = [] then [] else [word]
  | c :: cs =>
    if isBlank c then (if word = [] then [] else [word]) ++ lexWords [] cs
    else if c = ',' then (if word = [] then [] else [word]) ++ ([','] :: lexWords [] cs)
    else lexWords (word ++ [c]) cs

/-- The command a line's words name, with its numbers as written; `none` is an assembly error (R115). -/
def parseWords : List (List Char) → Option AsmCmd
  | [['B', 'U', 'S', 'I', 'N']] => some .busin
  | [['B', 'U', 'S', 'O', 'U', 'T']] => some .busout
  | [['W', 'E', 'P', 'U', 'L', 'S', 'E']] => some .wepulse
  | [['R', 'E', 'A', 'D'], a] => (parseNumber a).map .read
  | [['S', 'E', 'T', 'A', 'D', 'D', 'R'], a, [','], ['R']] => (parseNumber a).map (.setaddr · true)
  | [['S', 'E', 'T', 'A', 'D', 'D', 'R'], a, [','], ['W']] => (parseNumber a).map (.setaddr · false)
  | [['W', 'R', 'I', 'T', 'E'], a, [','], d] =>
    (parseNumber a).bind fun addr => (parseNumber d).map (.write addr ·)
  | _ => none

/-- What one line of assembler text is (R115). -/
inductive AsmLine where
  /-- Nothing but blanks and a comment. -/
  | empty
  | cmd (i : Instr)
  /-- An assembly error. -/
  | error
  deriving DecidableEq, Repr

/-- One line of assembler text: a comment runs from `;` to the end of the line (R115). -/
def assembleLine (line : List Char) : AsmLine :=
  match lexWords [] (line.takeWhile (· ≠ ';')) with
  | [] => .empty
  | ws =>
    match (parseWords ws).bind AsmCmd.assemble with
    | some i => .cmd i
    | none => .error

end Sys2Proof
end

