-- ==== Sys2Proof/Config.lean ====
section
/-! DEFINITION. The configuration of a launch (00_scope.md R7, R8), fixed for the machine, and the free values the
spec leaves open. A constant here without a body is free: no proof can learn its value. -/

namespace Sys2Proof

/-- The EEPROM responder a launch uses (R76). -/
inductive Responder where
  | reference
  | unconstrained
  deriving DecidableEq, Repr, Inhabited

/-- The parameters of R7 that a launch takes as arguments. R7 says of `T_WP_US` and `T_SETTLE_MS` that they are integers;
that the chip's minimums `T_WP_MIN_NS` and `T_WC_MS` are whole numbers too is the model's choice (DESIGN CHOICE, log 27),
and so is a number for each pin identifier (DESIGN CHOICE, log 20). -/
structure Params where
  pinSdata : Nat
  pinSclk : Nat
  pinSlatch : Nat
  /-- `PIN_D0`; data pin `i` is `PIN_D0 + i`. -/
  pinD0 : Nat
  pinWe : Nat
  /-- `T_WP_US`, the write-enable low time in microseconds. -/
  tWpUs : Nat
  /-- `T_WP_MIN_NS`, the chip's minimum pulse width in whole nanoseconds (DESIGN CHOICE, log 27). -/
  tWpMinNs : Nat
  /-- `T_SETTLE_MS`, the settle wait in milliseconds. -/
  tSettleMs : Nat
  /-- `T_WC_MS`, the chip's write-cycle time in whole milliseconds (DESIGN CHOICE, log 27). -/
  tWcMs : Nat
  /-- `EEPROM_SIZE`, the number of byte cells. -/
  eepromSize : Nat
  responder : Responder
  deriving DecidableEq, Repr, Inhabited

/-- The pin map: the pin identifier of each role (R7, R14, R61). -/
def Params.pinNumber (c : Params) : Pin → Nat
  | .sdata => c.pinSdata
  | .sclk => c.pinSclk
  | .slatch => c.pinSlatch
  | .d i => c.pinD0 + i.val
  | .we => c.pinWe

/-- The twelve pins (R14). -/
def allPins : List Pin :=
  [.sdata, .sclk, .slatch, .d 0, .d 1, .d 2, .d 3, .d 4, .d 5, .d 6, .d 7, .we]

/-- A configuration is well formed: the clauses of R8, with the lower bounds of 1 that R7 puts on the two delays. -/
abbrev Params.WellFormed (c : Params) : Prop :=
  (allPins.map c.pinNumber).Nodup ∧
  (1 ≤ c.eepromSize ∧ c.eepromSize ≤ 2 ^ 15) ∧
  (1 ≤ c.tWpUs ∧ c.tWpMinNs ≤ c.tWpUs * 1000) ∧
  (1 ≤ c.tSettleMs ∧ c.tWcMs ≤ c.tSettleMs)

/-- A configuration a launch can have. An ill-formed one has no value of this type: "the model has no run for it at
all" (R218). -/
structure Config where
  params : Params
  wellFormed : params.WellFormed
  deriving DecidableEq, Repr

/-- The values the spec fixes in R7. -/
def Config.eepromSize : Nat := 2048

/-- `WRITE_EN_MASK`, OR-ed into the high byte of the address word (R7, R101). -/
def Config.writeEnMask : Byte := 0x80

/-- The erased-cell sentinel (R7); no command uses it. -/
def Config.erased : Byte := 0xFF

/-- The effective address width `ceil(log2(EEPROM_SIZE))` (R9). -/
def Config.effectiveAddrBits (c : Config) : Nat := Nat.clog 2 c.params.eepromSize

/-- The OPEN parameters of the launch (R7): free (DESIGN CHOICE, log 1). Of this value only the nine OPEN fields are
used. -/
opaque Config.openParams : Params

/-- `MEM0`, the EEPROM contents at launch (R7, R33): free (DESIGN CHOICE, log 3). -/
opaque Config.mem0 : Nat → Byte

/-- The free draws of the unconstrained responder, by number (R81): free (DESIGN CHOICE, log 13). -/
opaque Config.freeDraw : Nat → Bool

/-- One well-formed choice, which stands in where the free choice is not well formed. -/
def Config.someParams : Params :=
  { pinSdata := 0, pinSclk := 1, pinSlatch := 2, pinD0 := 3, pinWe := 11, tWpUs := 1, tWpMinNs := 1000,
    tSettleMs := 1, tWcMs := 1, eepromSize := 2048, responder := .reference }

/-- The parameters of the launch that `State.reset` begins: the OPEN ones free among the well-formed choices,
EEPROM_SIZE and RESPONDER as R7 gives them. -/
def Config.launchParams : Params :=
  { (if ({ openParams with eepromSize := Config.eepromSize, responder := .reference } : Params).WellFormed
      then openParams else someParams) with
    eepromSize := Config.eepromSize, responder := .reference }

theorem Config.launchParams_wellFormed : launchParams.WellFormed := by
  unfold launchParams
  by_cases h : ({ openParams with eepromSize := Config.eepromSize, responder := .reference } : Params).WellFormed
  · rw [if_pos h]; exact h
  · rw [if_neg h]; decide

/-- The configuration of the launch that `State.reset` begins. -/
def Config.launch : Config := ⟨launchParams, launchParams_wellFormed⟩

end Sys2Proof
end

