-- ==== Sys2Proof/Machine/MicroOp.lean ====
section
/-! DEFINITION. Micro-operations (10_state.md R22), events of the trace (R27), the Cell Accessor's states (R23) and
the fault record (R35, R212). -/

namespace Sys2Proof.Machine

/-- The Cell Accessor state (R23, R180). -/
inductive Fsm where
  | idle
  | addressingRead
  | addressingWrite
  | samplingRead
  | pulsingWrite
  deriving DecidableEq, Repr

/-- A micro-operation (R22). Only data pins are ever sampled (R77), so `sampleInto` takes the data pin's number. -/
inductive MicroOp where
  | mode (p : Pin) (m : PinMode)
  | drive (p : Pin) (v : Bool)
  | sampleInto (i : Fin 8)
  | delayUs (n : Nat)
  | delayMs (n : Nat)
  | setFsm (f : Fsm)
  | accClear
  | accToRdata
  | initDone
  deriving DecidableEq, Repr

/-- A pin micro-operation, which appends one event; the others are internal and append none (R22). -/
def MicroOp.isPin : MicroOp → Bool
  | .mode _ _ => true
  | .drive _ _ => true
  | .sampleInto _ => true
  | .delayUs _ => true
  | .delayMs _ => true
  | .setFsm _ => false
  | .accClear => false
  | .accToRdata => false
  | .initDone => false

/-- An event of the trace (R27). -/
inductive Event where
  | cmd (w : CmdWord)
  | mode (p : Pin) (m : PinMode)
  | drive (p : Pin) (v : Bool)
  | sample (p : Pin) (v : Level)
  | delayUs (n : Nat)
  | delayMs (n : Nat)
  deriving DecidableEq, Repr

/-- The five fault causes (R211). -/
inductive FaultCause where
  | illegalCommand
  | addressOutOfRange
  | busDirection
  | directionMask
  | undefinedLevel
  deriving DecidableEq, Repr

/-- What a raising check names (R77, R78, R79, R40). -/
structure Raise where
  cause : FaultCause
  pin : Option Pin
  addr : Option Addr
  deriving DecidableEq, Repr

/-- The info record `finfo` (R212). -/
structure FaultInfo where
  /-- The command word being executed or accepted; `none` only for a fault before any command. -/
  word : Option CmdWord
  /-- The index in the trace of the event that raised it. -/
  event : Nat
  pin : Option Pin
  addr : Option Addr
  deriving DecidableEq, Repr

end Sys2Proof.Machine
end

