-- ==== Sys2Proof/Machine/Levels.lean ====
section
/-! DEFINITION. Levels and registers of levels: conversion to and from defined bits, and the shift of one stage
(00_scope.md R10, R11; 10_state.md R25, R30). -/

namespace Sys2Proof.Machine

/-- A defined level. -/
def levelOf (b : Bool) : Level := if b then .high else .low

/-- A register with every bit defined. -/
def defined {n : Nat} (b : BitVec n) : LVec n := Vector.ofFn fun i => levelOf (b.getLsbD i.val)

/-- A register with every bit `⊥`. -/
def undefined (n : Nat) : LVec n := Vector.replicate n .undef

/-- The value of a register all of whose bits are defined; `none` as soon as one bit is `⊥` (R11). -/
def bits? {n : Nat} (v : LVec n) : Option (BitVec n) :=
  if ∀ i : Fin n, v[i.val] ≠ .undef then some (BitVec.ofFnLE fun i => decide (v[i.val] = .high)) else none

/-- Shift every bit one place up and put `b` in bit 0; the top bit is lost (R25, R30, R74). -/
def shiftIn {n : Nat} (v : LVec n) (b : Level) : LVec n :=
  Vector.ofFn fun i => if i.val = 0 then b else v[i.val - 1]

/-- The place of a pin in the per-pin fields (R28). -/
def pinIndex : Pin → Fin 12
  | .sdata => 0
  | .sclk => 1
  | .slatch => 2
  | .d i => ⟨3 + i.val, by omega⟩
  | .we => 11

end Sys2Proof.Machine
end

