-- ==== Sys2Proof/Machine/Operands.lean ====
section
/-! DEFINITION. Operand forms: the address word (30_encoding.md R101) and its two bytes; the split of a 16-bit register
into the two chips (10_state.md R32). The fields of a command word are in Sys2Proof/Decode.lean. -/

namespace Sys2Proof.Machine

/-- `hi` of R101: `addr[14:8]` with the direction mask set for a write. -/
def addrHi (addr : Addr) (rw : Bool) : Byte :=
  (addr.extractLsb' 8 7).setWidth 8 ||| (if rw then 0x00 else Config.writeEnMask)

/-- `lo` of R101: `addr[7:0]`. -/
def addrLo (addr : Addr) : Byte := addr.extractLsb' 0 8

/-- The address word `hi · lo` (R101). -/
def addrWord (addr : Addr) (rw : Bool) : AddrWord := addrHi addr rw ++ addrLo addr

/-- The direction-mask bit M of an address word (R31, R101). -/
def dirMask (w : AddrWord) : Bool := w.getLsbD 15

/-- The address lines A14..A0 of an address word (R31). -/
def addrLines (w : AddrWord) : Addr := w.extractLsb' 0 15

/-- The register U1 of the pair: bits 7..0 (R32). -/
def chipU1 (v : LVec 16) : LVec 8 := Vector.ofFn fun i => v[i.val]

/-- The register U2 of the pair: bits 15..8 (R32). -/
def chipU2 (v : LVec 16) : LVec 8 := Vector.ofFn fun i => v[8 + i.val]

end Sys2Proof.Machine
end

