-- ==== Sys2Proof/Machine/Sequences.lean ====
section
/-! DEFINITION. The micro-operation sequences (40_address_serializer.md R130 to R132, 41_bus_control.md R150 to R156,
42_cell_access.md R182, R183, 70_reset_and_hazards.md R241). -/

namespace Sys2Proof.Machine

/-- `for i in 0..7`. -/
def upTo7 : List (Fin 8) := [0, 1, 2, 3, 4, 5, 6, 7]

/-- `for i in 7 downto 0`. -/
def downFrom7 : List (Fin 8) := [7, 6, 5, 4, 3, 2, 1, 0]

/-- One bit of a shift-out: the data level, clock high, clock low (R130). -/
def shiftOutBit (b : Bool) : List MicroOp := [.drive .sdata b, .drive .sclk true, .drive .sclk false]

/-- `ShiftOutByte(b)`, most significant bit first (R130). -/
def shiftOutByte (b : Byte) : List MicroOp := downFrom7.flatMap fun k => shiftOutBit (b.getLsbD k.val)

/-- `LatchPulse` (R131). -/
def latchPulse : List MicroOp := [.drive .slatch false, .drive .slatch true, .drive .slatch false]

/-- `SetAddressSeq(addr, rw)` (R132). -/
def setAddressSeq (addr : Addr) (rw : Bool) : List MicroOp :=
  shiftOutByte (addrHi addr rw) ++ shiftOutByte (addrLo addr) ++ latchPulse

/-- `BusModeSeq(m)` (R150). -/
def busModeSeq (m : PinMode) : List MicroOp := upTo7.map fun i => .mode (.d i) m

/-- `WePulseSeq` with the launch's durations (R153). -/
def wePulseSeq (c : Config) : List MicroOp :=
  [.drive .we false, .delayUs c.params.tWpUs, .drive .we true, .delayMs c.params.tSettleMs]

/-- `DriveBusSeq(d)`, bit 0 first (R155). -/
def driveBusSeq (d : Byte) : List MicroOp := upTo7.map fun i => .drive (.d i) (d.getLsbD i.val)

/-- `SampleBusSeq`, bit 7 first (R156). -/
def sampleBusSeq : List MicroOp := downFrom7.map .sampleInto

/-- `ReadSeq(a)` (R182). -/
def readSeq (a : Addr) : List MicroOp :=
  [.setFsm .addressingRead] ++ busModeSeq .input ++ setAddressSeq a true ++
    [.setFsm .samplingRead, .accClear] ++ sampleBusSeq ++ [.accToRdata, .setFsm .idle]

/-- `WriteSeq(a, d)` (R183). -/
def writeSeq (c : Config) (a : Addr) (d : Byte) : List MicroOp :=
  [.setFsm .addressingWrite] ++ busModeSeq .output ++ setAddressSeq a false ++
    [.setFsm .pulsingWrite] ++ driveBusSeq d ++ wePulseSeq c ++ [.setFsm .idle]

/-- `INIT` (R241). -/
def initSeq : List MicroOp :=
  [.drive .we true, .mode .we .output, .drive .sdata false, .drive .sclk false, .drive .slatch false,
    .mode .sdata .output, .mode .sclk .output, .mode .slatch .output, .initDone]

end Sys2Proof.Machine
end

