-- ==== Sys2Proof/Machine/State.lean ====
section
/-! DEFINITION. The state of the launch (10_state.md R22 to R36, 20_memory.md), its power-up value (R43), and the
reasons a step can stop. -/

namespace Sys2Proof.Machine

/-- The bytes committed to the EEPROM array since launch, addresses strictly rising (R33, R85). An address that is not
listed holds `MEM0` there, the free value `Config.mem0` (DESIGN CHOICE,
log 3). -/
abbrev Memory := List Host.Cell

/-- The canonical form of the memory. -/
abbrev Memory.wf (m : Memory) : Prop := m.Pairwise fun x y => x.1 < y.1

/-- Everything the spec gives the machine, and two fields of the model's own, `hostCmds` and `draws`. -/
structure State where
  /-- The configuration of the launch, read-only (R7, R38). -/
  cfg : Config
  /-- The micro-operations still to execute (R22). -/
  pending : List MicroOp
  /-- The Cell Accessor state (R23). -/
  fsm : Fsm
  /-- The current command's opcode (R24). -/
  cop : LVec 4
  /-- The current command's address (R24). -/
  caddr : LVec 15
  /-- The current command's read/write flag (R24). -/
  cflag : Level
  /-- The current command's data byte (R24). -/
  cdata : LVec 8
  /-- The sampling accumulator (R25). -/
  acc : LVec 8
  /-- The result register of READ (R26). -/
  rdata : LVec 8
  /-- `rdata_valid` (R26). -/
  rdataValid : Bool
  /-- `mode[p]` at `pinIndex p` (R28). -/
  modes : Vector PinMode 12
  /-- `out[p]` at `pinIndex p` (R28). -/
  outs : LVec 12
  /-- The shift chain (R30). -/
  sr : LVec 16
  /-- The output latch (R31). -/
  q : LVec 16
  /-- The EEPROM array (R33). -/
  mem : Memory
  /-- A captured write not yet committed (R34). -/
  pendingWrite : Option (Addr × Byte)
  /-- The fault record (R35). -/
  faulted : Bool
  fcode : BitVec 3
  finfo : Option FaultInfo
  /-- Set by the last micro-operation of INIT (R36). -/
  initDone : Bool
  /-- The events performed since power-up, oldest first (R27). -/
  trace : List Event
  /-- The words the host has yet to issue: port `cmd` is the first, `cmd_valid` says there is one (R39, R40;
  DESIGN CHOICE, log 4). -/
  hostCmds : List CmdWord
  /-- How many free draws the unconstrained responder has answered (R81; DESIGN CHOICE, log 13). -/
  draws : Nat
  deriving DecidableEq, Repr

/-- Why no agent has a step (R44; DESIGN CHOICE, log 5). Both are safe: the machine stays as it stands. -/
inductive Fault where
  /-- Raised by `step` in a faulted state, which is frozen (R22, R213); `code` is `fcode`. Safe. -/
  | launchFaulted (code : BitVec 3)
  /-- Raised by `step` when nothing is pending and the host issues nothing further: the run ends idle (R41). Safe. -/
  | hostIdle
  deriving DecidableEq, Repr

/-- What has no meaning. All are safe. -/
inductive Refusal where
  /-- An arm of `exec` for a command without a meaning; none is left. Safe. -/
  | notModelled (mnemonic : String)
  /-- Raised by the acceptance of a word (`issue`, `issueAccess`, `issueIllegal`) while `cmd_ready = 0`: the host has
  no such step (R40). Safe. -/
  | notReady
  /-- Raised by `launch` for a configuration that breaks R8: there is no run for it (R218). Safe. -/
  | illFormedConfiguration
  deriving DecidableEq, Repr

/-- The power-up state of a launch with configuration `c` (R43). -/
def State.powerUp (c : Config) : State where
  cfg := c
  pending := initSeq
  fsm := .idle
  cop := undefined 4
  caddr := undefined 15
  cflag := .undef
  cdata := undefined 8
  acc := undefined 8
  rdata := undefined 8
  rdataValid := false
  modes := Vector.replicate 12 .input
  outs := undefined 12
  sr := undefined 16
  q := undefined 16
  mem := []
  pendingWrite := none
  faulted := false
  fcode := 0
  finfo := none
  initDone := false
  trace := []
  hostCmds := []
  draws := 0

/-- The machine at power-up (R43, R240). -/
def State.reset : State := State.powerUp Config.launch

end Sys2Proof.Machine
end

