-- ==== Sys2Proof/Machine/Flags.lean ====
section
/-! DEFINITION. The status the core exposes (10_state.md R37, R39, R40); there are no condition codes. -/

namespace Sys2Proof.Machine

/-- `cmd_ready` (R40). -/
def State.cmdReady (s : State) : Bool :=
  s.initDone && s.pending.isEmpty && decide (s.fsm = .idle) && !s.faulted

/-- Port `cmd_valid`: the host presents a word (R39). -/
def State.cmdValid (s : State) : Bool := !s.hostCmds.isEmpty

/-- Port `cmd`: the word the host presents, 0 when it presents none (R39). -/
def State.cmd (s : State) : CmdWord := s.hostCmds.headD 0

/-- Port `fault` (R39). -/
def State.fault (s : State) : Bool := s.faulted

/-- Port `fault_code` (R39). -/
def State.faultCode (s : State) : BitVec 3 := s.fcode

/-- The code of a fault cause (R211). -/
def faultCodeOf : FaultCause → BitVec 3
  | .illegalCommand => 1
  | .addressOutOfRange => 2
  | .busDirection => 3
  | .directionMask => 4
  | .undefinedLevel => 5

end Sys2Proof.Machine
end

