-- ==== Sys2Proof/Machine/Ops.lean ====
section
/-! DEFINITION. The named operations: pins and levels (10_state.md R28, R29), memory (20_memory.md R77, R80), raising a
fault (60_exceptions.md R213), what each event does to the devices (20_memory.md R73 to R83), the micro-operations
(10_state.md R22) and the acceptance of a command (R40). -/

namespace Sys2Proof.Machine

/-! ### Memory -/

/-- The byte committed to a cell since launch, if one was (R85). -/
def memLookup : Memory → Nat → Option Byte
  | [], _ => none
  | (k, v) :: m, a => if k = a then some v else memLookup m a

/-- `MemRead(a, 1)`: the last byte committed, else `MEM0[a]` (R77, R85). -/
def memRead (m : Memory) (a : Nat) : Byte := (memLookup m a).getD (Config.mem0 a)

/-- `MemWrite(a, 1, d)`, keeping the canonical form (R80). -/
def memWrite : Memory → Nat → Byte → Memory
  | [], a, d => [(a, d)]
  | (k, v) :: m, a, d =>
    if a < k then (a, d) :: (k, v) :: m
    else if a = k then (a, d) :: m
    else (k, v) :: memWrite m a d

/-! ### Pins -/

/-- `mode[p]` (R28). -/
def State.mode (s : State) (p : Pin) : PinMode := s.modes[(pinIndex p).val]

/-- `out[p]` (R28). -/
def State.out (s : State) (p : Pin) : Level := s.outs[(pinIndex p).val]

/-- Write `mode[p]`; `out[p]` stays (R28). -/
def State.setMode (s : State) (p : Pin) (m : PinMode) : State :=
  { s with modes := s.modes.set (pinIndex p).val m (pinIndex p).isLt }

/-- Write `out[p]` (R28). -/
def State.setOut (s : State) (p : Pin) (v : Level) : State :=
  { s with outs := s.outs.set (pinIndex p).val v (pinIndex p).isLt }

/-- `lvl(p)`, the level of the wire (R29). -/
def State.lvl (s : State) (p : Pin) : Level :=
  match s.mode p with
  | .output => s.out p
  | .input => .undef

/-- `weLvl`, what the EEPROM sees on its write-enable input: an undriven line reads 1 (R83; log 18). -/
def State.weLvl (s : State) : Bool := decide (s.lvl .we ≠ .low)

/-- The levels of `out[D7] · ... · out[D0]` (R78). -/
def State.dataOut (s : State) : LVec 8 := Vector.ofFn fun i => s.out (.d i)

/-! ### Trace and faults -/

/-- Append an event (R27). -/
def State.emit (s : State) (e : Event) : State := { s with trace := s.trace ++ [e] }

/-- The last command accepted: the command being executed or accepted (R212; DEDUCED, log 8). -/
def lastCmd : List Event → Option CmdWord
  | [] => none
  | e :: es =>
    match lastCmd es with
    | some w => some w
    | none => match e with
      | .cmd w => some w
      | _ => none

/-- `raise F(info)`: the first fault is recorded and the state is otherwise frozen as it stands; the event that raised
it is the last of the trace (R35, R212, R213). -/
def State.raise (s : State) (r : Raise) : State :=
  if s.faulted then s
  else { s with
    faulted := true
    fcode := faultCodeOf r.cause
    finfo := some { word := lastCmd s.trace, event := s.trace.length - 1, pin := r.pin, addr := r.addr } }

/-! ### The shift-register pair -/

/-- The reaction to a change of `lvl(SCLK)` (R74). -/
def shiftEdge (old : Level) (s : State) : State :=
  let new := s.lvl .sclk
  if old = new then s
  else match old, new with
    | .low, .high => { s with sr := shiftIn s.sr (s.lvl .sdata) }
    | .high, .low => s
    | _, _ => { s with sr := undefined 16 }

/-- The reaction of the pair to a change of `lvl(SLATCH)` (R75). -/
def latchEdge (old : Level) (s : State) : State :=
  let new := s.lvl .slatch
  if old = new then s
  else match old, new with
    | .low, .high => { s with q := s.sr }
    | .high, .low => s
    | _, _ => { s with q := undefined 16 }

/-! ### The EEPROM responder -/

/-- The checks of a sample of `Di`, in the order of R77; the answer is the cell's address. -/
def sampleCheck (i : Fin 8) (s : State) : Except Raise Addr :=
  if ∃ j : Fin 8, s.mode (.d j) ≠ .input then .error ⟨.busDirection, some (.d i), none⟩
  else if s.weLvl = false then .error ⟨.directionMask, some (.d i), none⟩
  else match bits? s.q with
    | none => .error ⟨.undefinedLevel, some (.d i), none⟩
    | some w =>
      if dirMask w = true then .error ⟨.directionMask, some (.d i), none⟩
      else if s.cfg.params.eepromSize ≤ (addrLines w).toNat then
        .error ⟨.addressOutOfRange, none, some (addrLines w)⟩
      else if s.pendingWrite ≠ none then .error ⟨.undefinedLevel, some (.d i), none⟩
      else .ok (addrLines w)

/-- The checks at a WE falling edge, in the order of R78; the answer is the address and the byte captured. -/
def captureCheck (s : State) : Except Raise (Addr × Byte) :=
  if ∃ j : Fin 8, s.mode (.d j) ≠ .output then .error ⟨.busDirection, some .we, none⟩
  else match bits? s.q, bits? s.dataOut with
    | some w, some d =>
      if dirMask w = false then .error ⟨.directionMask, some .we, none⟩
      else if s.cfg.params.eepromSize ≤ (addrLines w).toNat then
        .error ⟨.addressOutOfRange, none, some (addrLines w)⟩
      else if s.pendingWrite ≠ none then .error ⟨.undefinedLevel, some .we, none⟩
      else .ok (addrLines w, d)
    | _, _ => .error ⟨.undefinedLevel, some .we, none⟩

/-- The level the responder answers for `Di` at address `a`: the reference responder's cell bit (R77), or a free draw
of the unconstrained responder (R81). -/
def sampleAnswer (i : Fin 8) (a : Addr) (s : State) : Bool :=
  match s.cfg.params.responder with
  | .reference => (memRead s.mem a.toNat).getLsbD i.val
  | .unconstrained => Config.freeDraw s.draws

/-- The draws answered after one more sample (R81). -/
def drawsAfter (s : State) : Nat :=
  match s.cfg.params.responder with
  | .reference => s.draws
  | .unconstrained => s.draws + 1

/-- `SampleInto(Di)`: the event carries the answer, or `⊥` when a check raises, and `acc` then stays
(R25, R77, R213; DEDUCED, log 10). -/
def sample (i : Fin 8) (s : State) : State :=
  match sampleCheck i s with
  | .error r => (s.emit (.sample (.d i) .undef)).raise r
  | .ok a =>
    { s.emit (.sample (.d i) (levelOf (sampleAnswer i a s))) with
      acc := shiftIn s.acc (levelOf (sampleAnswer i a s))
      draws := drawsAfter s }

/-- The capture at a WE falling edge (R78). -/
def capture (s : State) : State :=
  match captureCheck s with
  | .error r => s.raise r
  | .ok w => { s with pendingWrite := some w }

/-- The reaction to a change of `weLvl` from `old`: a falling edge captures, a rising edge changes nothing (R78, R79). -/
def weEdge (old : Bool) (s : State) : State :=
  if old = true ∧ s.weLvl = false then capture s else s

/-- An event on pin `p` that may not happen while WE is low (R79). -/
def whileLow (p : Pin) (s : State) : State :=
  if s.weLvl = false then s.raise ⟨.undefinedLevel, some p, none⟩ else s

/-- The commit at the end of a `DelayMs` with a write pending and WE high, under either responder (R80;
DESIGN CHOICE, log 14). -/
def commit (s : State) : State :=
  match s.pendingWrite with
  | some (a, d) => if s.weLvl = true then { s with mem := memWrite s.mem a.toNat d, pendingWrite := none } else s
  | none => s

/-! ### Micro-operations -/

/-- The reactions to a `Mode` or `Drive` on pin `p`, from the state `old` before the event to `s`, in which the pin is
updated and the event appended (R73, R79; DEDUCED, log 11, log 12). -/
def react (p : Pin) (old s : State) : State :=
  match p with
  | .sdata => s
  | .sclk => shiftEdge (old.lvl .sclk) s
  | .slatch =>
    let t := latchEdge (old.lvl .slatch) s
    if t.q = s.q then t else whileLow .slatch t
  | .d i => whileLow (.d i) s
  | .we => weEdge old.weLvl s

/-- Perform one micro-operation (R22, R73). -/
def perform (op : MicroOp) (s : State) : State :=
  match op with
  | .mode p m => react p s ((s.setMode p m).emit (.mode p m))
  | .drive p v => react p s ((s.setOut p (levelOf v)).emit (.drive p v))
  | .sampleInto i => sample i s
  | .delayUs n => s.emit (.delayUs n)
  | .delayMs n => commit (s.emit (.delayMs n))
  | .setFsm f => { s with fsm := f }
  | .accClear => { s with acc := defined 0x00#8 }
  | .accToRdata => { s with rdata := s.acc, rdataValid := true }
  | .initDone => { s with initDone := true }

/-- One step of the core: remove the head of `pending` and perform it (R22). -/
def coreStep (op : MicroOp) (rest : List MicroOp) (s : State) : State := perform op { s with pending := rest }

/-- Run the listed micro-operations, the whole of `pending`, until none is left or one faults. -/
def runOps : List MicroOp → State → State
  | [], s => s
  | op :: rest, s => if s.faulted then s else runOps rest (coreStep op rest s)

/-! ### Acceptance -/

/-- The first effects of `Issue(w)`: the event and the stale result (R40). -/
def State.announce (s : State) (w : CmdWord) : State := { s.emit (.cmd w) with rdataValid := false }

/-- The current-command registers take the fields of the word (R24, R40). -/
def State.loadCmd (s : State) (w : CmdWord) : State :=
  { s with
    cop := defined (fieldOp w)
    caddr := defined (fieldAddr w)
    cflag := levelOf (fieldF w)
    cdata := defined (fieldData w) }

/-- `Issue` of a legal word whose expansion is `seq` (R40). -/
def issue (w : CmdWord) (seq : List MicroOp) (s : State) : Host.Outcome State Fault Refusal :=
  if s.cmdReady then .next { (s.announce w).loadCmd w with pending := seq } else .refused .notReady

/-- `Issue` of a READ or WRITE of `addr`: out of range it raises, with no pin event (R40). -/
def issueAccess (w : CmdWord) (addr : Addr) (seq : List MicroOp) (s : State) : Host.Outcome State Fault Refusal :=
  if s.cfg.params.eepromSize ≤ addr.toNat then
    if s.cmdReady then .next (((s.announce w).loadCmd w).raise ⟨.addressOutOfRange, none, some addr⟩)
    else .refused .notReady
  else issue w seq s

/-- `Issue` of an illegal word (R40, R112). -/
def issueIllegal (w : CmdWord) (s : State) : Host.Outcome State Fault Refusal :=
  if s.cmdReady then .next ((s.announce w).raise ⟨.illegalCommand, none, none⟩) else .refused .notReady

/-! ### Launch -/

/-- Begin a launch: an ill-formed configuration is refused, it has no run (R8, R218, R240). -/
def launch (c : Params) : Host.Outcome State Fault Refusal :=
  if h : c.WellFormed then .next (State.powerUp ⟨c, h⟩) else .refused .illFormedConfiguration

end Sys2Proof.Machine
end

