-- ==== Sys2Proof/Machine/AddressWriter.lean ====
section
/-! DEFINITION. The Shift-Register Address Writer's command (40_address_serializer.md R133). -/

namespace Sys2Proof.Machine

/-- SETADDR: `pending <- SetAddressSeq(addr, rw)`, whatever the address (R133). -/
def execSetaddr (addr : Addr) (rw : Bool) (s : State) : Host.Outcome State Fault Refusal :=
  issue (encode (.setaddr addr rw)) (setAddressSeq addr rw) s

end Sys2Proof.Machine
end

