-- ==== Sys2Proof/Machine/BusControl.lean ====
section
/-! DEFINITION. The Bus Direction Controller's commands (41_bus_control.md R151, R152, R154). -/

namespace Sys2Proof.Machine

/-- BUSIN: `pending <- BusModeSeq(IN)` (R151). -/
def execBusin (s : State) : Host.Outcome State Fault Refusal := issue (encode .busin) (busModeSeq .input) s

/-- BUSOUT: `pending <- BusModeSeq(OUT)` (R152). -/
def execBusout (s : State) : Host.Outcome State Fault Refusal := issue (encode .busout) (busModeSeq .output) s

/-- WEPULSE: `pending <- WePulseSeq` (R154). -/
def execWepulse (s : State) : Host.Outcome State Fault Refusal := issue (encode .wepulse) (wePulseSeq s.cfg) s

end Sys2Proof.Machine
end

