-- ==== Sys2Proof/Machine/CellAccess.lean ====
section
/-! DEFINITION. The Cell Accessor's commands (42_cell_access.md R182, R183). -/

namespace Sys2Proof.Machine

/-- READ: `pending <- ReadSeq(addr)`, or F_ADDRESS_OUT_OF_RANGE (R182). -/
def execRead (addr : Addr) (s : State) : Host.Outcome State Fault Refusal :=
  issueAccess (encode (.read addr)) addr (readSeq addr) s

/-- WRITE: `pending <- WriteSeq(addr, data)`, or F_ADDRESS_OUT_OF_RANGE (R183). -/
def execWrite (addr : Addr) (data : Byte) (s : State) : Host.Outcome State Fault Refusal :=
  issueAccess (encode (.write addr data)) addr (writeSeq s.cfg addr data) s

end Sys2Proof.Machine
end

