-- ==== Sys2Proof/Machine/Dispatch.lean ====
section
/-! DEFINITION. exec: one arm per command of the opcode table (30_encoding.md R110). -/

namespace Sys2Proof.Machine

-- The acceptance of a command (R40); the steps that follow perform its micro-operations.
def exec (i : Instr) (s : State) : Host.Outcome State Fault Refusal :=
  match i with
  | .setaddr addr rw => Sys2Proof.Machine.execSetaddr addr rw s
  | .busin => Sys2Proof.Machine.execBusin s
  | .busout => Sys2Proof.Machine.execBusout s
  | .wepulse => Sys2Proof.Machine.execWepulse s
  | .read addr => Sys2Proof.Machine.execRead addr s
  | .write addr data => Sys2Proof.Machine.execWrite addr data s

end Sys2Proof.Machine
end

