-- ==== Sys2Proof/Machine/Step.lean ====
section
/-! DEFINITION. One step of the launch (10_state.md R20, R22, R40, R44) and the host's placing of a command. -/

namespace Sys2Proof.Machine

/-- One step: the core's while a micro-operation is pending, else the host's acceptance of the next word. No agent has
a step in a faulted state, nor when the host issues nothing further (R22, R40, R44). -/
def step (s : State) : Host.Outcome State Fault Refusal :=
  if s.faulted then .fault (.launchFaulted s.fcode)
  else match s.pending with
    | op :: rest => .next (coreStep op rest s)
    | [] => match s.hostCmds with
      | [] => .fault .hostIdle
      | w :: ws => match decode w with
        | .cmd i => exec i { s with hostCmds := ws }
        | .illegal _ => issueIllegal w { s with hostCmds := ws }

/-- `s` with every pending micro-operation run (INIT, after power-up) and the word presented by the host, so that the
next step accepts it (DESIGN CHOICE, log 17). -/
def State.withFetchWord (s : State) (nbits w : Nat) : State :=
  { runOps s.pending s with hostCmds := BitVec.ofNat 32 (w % 2 ^ nbits) :: s.hostCmds }

end Sys2Proof.Machine
end

