-- ==== Sys2Proof/Safety.lean ====
section
/-! DEFINITION. What counts as a run, its end and a good end (10_state.md R44), the state between commands, and the
invariant of a launch (41_bus_control.md R158, 42_cell_access.md R181), in the terms the statements use. -/

namespace Sys2Proof.Machine

/-- `k` steps, stopping where no agent has a step: `Host.Core.run` of this machine. -/
def runSteps : Nat → State → Host.Outcome State Fault Refusal
  | 0, s => .next s
  | k + 1, s =>
    match step s with
    | .next t => runSteps k t
    | .fault r => .fault r
    | .refused r => .refused r

/-- No agent has a step: the run has ended (R44). -/
def State.Ended (s : State) : Bool :=
  s.faulted || (s.pending.isEmpty && (s.hostCmds.isEmpty || !s.cmdReady))

/-- A good end (R44). -/
def State.GoodEnd (s : State) : Bool :=
  s.Ended && (!s.faulted && s.initDone && s.pending.isEmpty && decide (s.fsm = .idle) && s.pendingWrite.isNone)

/-- What a good end is observed as: the trace, the array, and the result with its flag (R44). -/
def State.observation (s : State) : List Event × Memory × LVec 8 × Bool := (s.trace, s.mem, s.rdata, s.rdataValid)

/-- The events a list of micro-operations appends, the samples left out (R22, R27). -/
def eventsOf : List MicroOp → List Event
  | [] => []
  | .mode p m :: ops => .mode p m :: eventsOf ops
  | .drive p v :: ops => .drive p v :: eventsOf ops
  | .delayUs n :: ops => .delayUs n :: eventsOf ops
  | .delayMs n :: ops => .delayMs n :: eventsOf ops
  | .sampleInto _ :: ops => eventsOf ops
  | .setFsm _ :: ops => eventsOf ops
  | .accClear :: ops => eventsOf ops
  | .accToRdata :: ops => eventsOf ops
  | .initDone :: ops => eventsOf ops

/-- The events of the eight samples that read the byte `d`, D7 first (R156, R182). -/
def sampleEvents (d : Byte) : List Event := downFrom7.map fun i => .sample (.d i) (levelOf (d.getLsbD i.val))

/-- The state that the acceptance of the legal word `w` with expansion `seq` leaves (R40). -/
def State.accepted (s : State) (w : CmdWord) (seq : List MicroOp) : State :=
  { (s.announce w).loadCmd w with pending := seq }

/-- The four control pins are outputs (R241). -/
structure State.ControlPinsOut (s : State) : Prop where
  sdata : s.mode .sdata = .output
  sclk : s.mode .sclk = .output
  slatch : s.mode .slatch = .output
  we : s.mode .we = .output

/-- The state in which SetAddressSeq may start: INIT done, `out[SCLK] = 0`, SDATA, SCLK and SLATCH outputs (R134); and
no fault and WE high, so that its steps run and the change of `q` raises nothing (R22, R79). -/
structure State.SerializerReady (s : State) : Prop where
  notFaulted : s.faulted = false
  done : s.initDone = true
  sclkLow : s.out .sclk = .low
  sdata : s.mode .sdata = .output
  sclk : s.mode .sclk = .output
  slatch : s.mode .slatch = .output
  weHigh : s.weLvl = true

/-- The state between commands: the core is ready, the control pins are outputs at their idle levels, and no write is
pending (R40, R130, R158, R241). -/
structure State.Idle (s : State) : Prop where
  ready : s.cmdReady = true
  pins : s.ControlPinsOut
  sclkLow : s.out .sclk = .low
  slatchLow : s.out .slatch = .low
  weHigh : s.out .we = .high
  noWrite : s.pendingWrite = none

/-! ### The invariant of a launch -/

/-- Where a write pulse stands: WE high and no write pending; WE low before and after its delay; WE high again with the
settle wait still to come (R153, R158). -/
inductive PulsePhase where
  | high
  | low
  | lowTimed
  | settling
  deriving DecidableEq, Repr

/-- The level of `out[WE]` in a phase (R158). -/
def PulsePhase.weLevel : PulsePhase → Level
  | .high => .high
  | .low => .low
  | .lowTimed => .low
  | .settling => .high

/-- The phase a micro-operation of a command leads to; `none` where the order and the durations of R153 and R158 forbid
it. -/
def PulsePhase.after (c : Config) : PulsePhase → MicroOp → Option PulsePhase
  | .high, .drive .we v => if v then none else some .low
  | .high, .drive .sdata _ => some .high
  | .high, .drive .sclk _ => some .high
  | .high, .drive .slatch _ => some .high
  | .high, .drive (.d _) _ => some .high
  | .high, .mode (.d _) _ => some .high
  | .high, .sampleInto _ => some .high
  | .high, .setFsm _ => some .high
  | .high, .accClear => some .high
  | .high, .accToRdata => some .high
  | .low, .delayUs n => if n = c.params.tWpUs then some .lowTimed else none
  | .lowTimed, .drive .we true => some .settling
  | .settling, .delayMs n => if n = c.params.tSettleMs then some .high else none
  | _, _ => none

/-- The pending micro-operations take the phase to `high` at their end, in the order of R153 and R158. -/
def pulseOk (c : Config) (ph : PulsePhase) : List MicroOp → Bool
  | [] => decide (ph = .high)
  | op :: ops =>
    match ph.after c op with
    | some ph' => pulseOk c ph' ops
    | none => false

/-- The transitions of the Cell Accessor (R181). -/
def fsmEdge (f g : Fsm) : Bool :=
  match f, g with
  | .idle, .addressingRead => true
  | .addressingRead, .samplingRead => true
  | .samplingRead, .idle => true
  | .idle, .addressingWrite => true
  | .addressingWrite, .pulsingWrite => true
  | .pulsingWrite, .idle => true
  | _, _ => false

/-- The pending micro-operations take the Cell Accessor to `Idle` by transitions of R181 alone. -/
def fsmOk (f : Fsm) : List MicroOp → Bool
  | [] => decide (f = .idle)
  | .setFsm g :: ops => fsmEdge f g && fsmOk g ops
  | _ :: ops => fsmOk f ops

/-- The output register of pin `p` after the pending micro-operations, `l` being its value before them. -/
def outAfter (p : Pin) (l : Level) : List MicroOp → Level
  | [] => l
  | .drive p' v :: ops => outAfter p (if p' = p then levelOf v else l) ops
  | _ :: ops => outAfter p l ops

/-- A launch that has performed the first `k` micro-operations of INIT, and no others (R241). -/
structure State.InitPhase (s : State) (k : Nat) : Prop where
  le : k ≤ 8
  pending : s.pending = initSeq.drop k
  notDone : s.initDone = false
  fsm : s.fsm = .idle
  noWrite : s.pendingWrite = none
  modeWe : s.mode .we = if 2 ≤ k then .output else .input
  modeSdata : s.mode .sdata = if 6 ≤ k then .output else .input
  modeSclk : s.mode .sclk = if 7 ≤ k then .output else .input
  modeSlatch : s.mode .slatch = if 8 ≤ k then .output else .input
  outWe : 1 ≤ k → s.out .we = .high
  outSclk : 4 ≤ k → s.out .sclk = .low
  outSlatch : 5 ≤ k → s.out .slatch = .low

/-- A launch past INIT, inside or between commands, with the write pulse in phase `ph` (R158, R181). -/
structure State.RunPhase (s : State) (ph : PulsePhase) : Prop where
  done : s.initDone = true
  pins : s.ControlPinsOut
  pulse : pulseOk s.cfg ph s.pending = true
  weLevel : s.out .we = ph.weLevel
  write : s.pendingWrite.isSome = decide (ph ≠ .high)
  fsm : fsmOk s.fsm s.pending = true
  sclk : outAfter .sclk (s.out .sclk) s.pending = .low
  slatch : outAfter .slatch (s.out .slatch) s.pending = .low

/-- The invariant of a launch: until a fault, it is in INIT or past it. -/
def State.LaunchInv (s : State) : Prop :=
  s.faulted = false → (∃ k, s.InitPhase k) ∨ (∃ ph, s.RunPhase ph)

/-- The array's form: canonical, and no cell outside `[0, EEPROM_SIZE)`, committed or captured (R33, R69). -/
structure State.MemInv (s : State) : Prop where
  wf : s.mem.wf
  inRange : ∀ c ∈ s.mem, c.1 < s.cfg.params.eepromSize
  pendingInRange : ∀ a d, s.pendingWrite = some (a, d) → a.toNat < s.cfg.params.eepromSize

end Sys2Proof.Machine
end

