-- ==== Sys2Proof/Certificates/Slice0/Obligations.lean ====
section
/-! DEFINITION. The statements for the provers. Each docstring says which rule of spec/ it formalises, or which sections
it rests on, and names the log entries of the model's own choices it uses. R68, R85, R86, R134 to R137, R158, R184, R186
and R189 are inferences the spec itself marks 'derived'; the statements about them have basis 'derived'. -/

open Sys2Proof Sys2Proof.Machine

/-! ### Encoding -/

/-- The decoder reads every encoded command back, with every operand at every value (30_encoding.md R107 to R111). -/
def Obligations.DecodeOfEncodeIsTheCommand : Prop := ∀ i : Instr, decode (encode i) = .cmd i

/-- A word the decoder accepts is the encoding of what it reads: no bit of a legal word is dropped (R109, R111). -/
def Obligations.EncodeOfDecodeIsTheWord : Prop := ∀ (w : CmdWord) (i : Instr), decode w = .cmd i → encode i = w

/-- A word is illegal exactly in the five cases of R112, and accepting one raises F_ILLEGAL_COMMAND with no pin event. -/
def Obligations.IllegalWordsAreExactlyThoseListed : Prop :=
  ∀ w : CmdWord,
    ((∃ why, decode w = .illegal why) ↔
      (((fieldOp w).toNat = 0 ∨ 7 ≤ (fieldOp w).toNat) ∨
        (fieldRsv1 w ≠ 0 ∨ fieldRsv0 w = true) ∨
        (fieldF w = true ∧ fieldOp w ≠ 0x1) ∨
        (fieldData w ≠ 0 ∧ fieldOp w ≠ 0x6) ∨
        (fieldAddr w ≠ 0 ∧ (fieldOp w = 0x2 ∨ fieldOp w = 0x3 ∨ fieldOp w = 0x4)))) ∧
    ((∃ why, decode w = .illegal why) → ∀ (s : State) (ws : List CmdWord), s.cmdReady = true → s.hostCmds = w :: ws →
      ∃ t, step s = .next t ∧ t.faulted = true ∧ t.fcode = faultCodeOf .illegalCommand ∧
        t.trace = s.trace ++ [.cmd w])

/-- At most one row of the opcode map matches a word (R111). -/
def Obligations.AtMostOneRowMatches : Prop :=
  ∀ (w : CmdWord) (r r' : OpRow), r ∈ opcodeMap → r' ∈ opcodeMap →
    r.matchesWord w = true → r'.matchesWord w = true → r = r'

/-- Words written out from the bit patterns of R110 decode to the commands they stand for (95_test_vectors.md VE1). -/
def Obligations.SpecWordsDecode : Prop :=
  decode 0x11001234 = .cmd (.setaddr 0x1234 true) ∧ decode 0x10000005 = .cmd (.setaddr 0x005 false) ∧
  decode 0x20000000 = .cmd .busin ∧ decode 0x30000000 = .cmd .busout ∧ decode 0x40000000 = .cmd .wepulse ∧
  decode 0x50000005 = .cmd (.read 0x005) ∧ decode 0x60A50005 = .cmd (.write 0x005 0xA5)

/-- The address word is `hi · lo` of R101, so `M · addr` with M the inverse of `rw` (R101). -/
def Obligations.AddressWordLayout : Prop :=
  ∀ (addr : Addr) (rw : Bool),
    addrWord addr rw =
      ((addr.extractLsb' 8 7).setWidth 8 ||| (if rw then 0x00#8 else 0x80#8)) ++ addr.extractLsb' 0 8 ∧
    (addrWord addr rw).getLsbD 15 = !rw ∧
    (addrWord addr rw).extractLsb' 8 7 = addr.extractLsb' 8 7 ∧
    (addrWord addr rw).extractLsb' 0 8 = addr.extractLsb' 0 8 ∧
    addrLines (addrWord addr rw) = addr

/-! ### Acceptance -/

/-- SETADDR, BUSIN, BUSOUT and WEPULSE are accepted whenever the core is ready, whatever their operands: `Cmd(w)` is
traced, `rdata_valid` cleared, the command registers loaded and `pending` set to the expansion; nothing else changes. -/
def Obligations.PrimitiveCommandsAreAccepted : Prop :=
  ∀ (s : State), s.cmdReady = true →
    (∀ addr rw, exec (.setaddr addr rw) s =
      .next { s with
        trace := s.trace ++ [.cmd (encode (.setaddr addr rw))], rdataValid := false, cop := defined 0x1#4,
        caddr := defined addr, cflag := levelOf rw, cdata := defined 0x00#8, pending := setAddressSeq addr rw }) ∧
    exec .busin s =
      .next { s with
        trace := s.trace ++ [.cmd 0x20000000], rdataValid := false, cop := defined 0x2#4,
        caddr := defined 0#15, cflag := .low, cdata := defined 0x00#8, pending := busModeSeq .input } ∧
    exec .busout s =
      .next { s with
        trace := s.trace ++ [.cmd 0x30000000], rdataValid := false, cop := defined 0x3#4,
        caddr := defined 0#15, cflag := .low, cdata := defined 0x00#8, pending := busModeSeq .output } ∧
    exec .wepulse s =
      .next { s with
        trace := s.trace ++ [.cmd 0x40000000], rdataValid := false, cop := defined 0x4#4,
        caddr := defined 0#15, cflag := .low, cdata := defined 0x00#8, pending := wePulseSeq s.cfg }

/-- READ and WRITE of an address below EEPROM_SIZE are accepted whenever the core is ready. -/
def Obligations.CellCommandsInRangeAreAccepted : Prop :=
  ∀ (s : State) (addr : Addr) (data : Byte), s.cmdReady = true → addr.toNat < s.cfg.params.eepromSize →
    exec (.read addr) s =
      .next { s with
        trace := s.trace ++ [.cmd (encode (.read addr))], rdataValid := false, cop := defined 0x5#4,
        caddr := defined addr, cflag := .low, cdata := defined 0x00#8, pending := readSeq addr } ∧
    exec (.write addr data) s =
      .next { s with
        trace := s.trace ++ [.cmd (encode (.write addr data))], rdataValid := false, cop := defined 0x6#4,
        caddr := defined addr, cflag := .low, cdata := defined data, pending := writeSeq s.cfg addr data }

/-- READ and WRITE of an address of EEPROM_SIZE or more fault at acceptance with F_ADDRESS_OUT_OF_RANGE and no pin
event: code 2, the word, the `Cmd` event's index and the address are recorded; nothing is left pending. -/
def Obligations.CellCommandsOutOfRangeFault : Prop :=
  ∀ (s : State) (i : Instr) (addr : Addr), s.cmdReady = true → s.cfg.params.eepromSize ≤ addr.toNat →
    (i = .read addr ∨ ∃ data, i = .write addr data) →
    exec i s = .next { s with
      trace := s.trace ++ [.cmd (encode i)], rdataValid := false, cop := defined i.opcode.code,
      caddr := defined addr, cflag := .low, cdata := defined (fieldData (encode i)), faulted := true, fcode := 2,
      finfo := some { word := some (encode i), event := s.trace.length, pin := none, addr := some addr } }

/-- A ready core that is given an illegal word faults with F_ILLEGAL_COMMAND and no pin event; the command registers
keep their values (R112, R211, 10_state.md R40). -/
def Obligations.IllegalWordFaults : Prop :=
  ∀ (s : State) (w : CmdWord) (ws : List CmdWord) (why : IllegalReason), s.cmdReady = true → s.hostCmds = w :: ws →
    decode w = .illegal why →
    step s = .next { s with
      hostCmds := ws, trace := s.trace ++ [.cmd w], rdataValid := false, faulted := true, fcode := 1,
      finfo := some { word := some w, event := s.trace.length, pin := none, addr := none } }

/-- No command is accepted while `cmd_ready = 0`: the host has no such step (R40; the refusal's name is log 5's). -/
def Obligations.NothingIsAcceptedUnlessReady : Prop :=
  ∀ (s : State) (i : Instr), s.cmdReady = false → exec i s = .refused .notReady

/-- What the acceptance of any command can change: the trace, the result flag, the command registers, `pending` and the
fault record; every other field, and every byte of memory, is as before. -/
def Obligations.AcceptanceFrame : Prop :=
  ∀ (s t : State) (i : Instr), exec i s = .next t →
    (t.cfg = s.cfg ∧ t.fsm = s.fsm ∧ t.acc = s.acc ∧ t.rdata = s.rdata ∧ t.modes = s.modes ∧ t.outs = s.outs ∧
      t.sr = s.sr ∧ t.q = s.q ∧ t.pendingWrite = s.pendingWrite ∧ t.initDone = s.initDone ∧
      t.hostCmds = s.hostCmds ∧ t.draws = s.draws) ∧
    (∀ a, memRead t.mem a = memRead s.mem a) ∧
    (t.trace = s.trace ++ [.cmd (encode i)] ∧ t.rdataValid = false ∧ t.cop = defined i.opcode.code)

/-! ### Steps -/

/-- When nothing is pending and the host presents the word of a command, the step is `exec` of that command, with the
word taken from the host's list. -/
def Obligations.StepRunsTheDecodedCommand : Prop :=
  ∀ (s : State) (w : CmdWord) (ws : List CmdWord) (i : Instr), s.faulted = false → s.pending = [] →
    s.hostCmds = w :: ws → decode w = .cmd i → step s = exec i { s with hostCmds := ws }

/-- The core's step removes the head of `pending` and performs it; and only a non-empty `pending` with no fault gives it:
otherwise the only step there can be is an acceptance, which takes the host's word and appends its `Cmd` event (R22). -/
def Obligations.CoreStepPerformsTheHead : Prop :=
  ∀ s : State,
    (∀ (op : MicroOp) (rest : List MicroOp), s.faulted = false → s.pending = op :: rest →
      step s = .next (perform op { s with pending := rest }) ∧
      (perform op { s with pending := rest }).pending = rest) ∧
    (∀ t, s.faulted = true ∨ s.pending = [] → step s = .next t →
      ∃ w, s.hostCmds = w :: t.hostCmds ∧ t.trace = s.trace ++ [.cmd w])

/-- A faulted state has no step, whatever is pending or presented (R22, R40, R213). -/
def Obligations.FaultedStateHasNoStep : Prop :=
  ∀ s : State, s.faulted = true → ∀ t, step s ≠ .next t

/-- The states in which no agent has a step are the ended ones, whatever else they hold (R22, R40, R44). -/
def Obligations.EndedIffNoStep : Prop :=
  ∀ s : State, s.Ended = true ↔ ∀ t, step s ≠ .next t

/-- A step appends at most one event and forgets none; it changes neither the configuration nor a set `initDone`
(R27, R36, R38). -/
def Obligations.StepKeepsTraceConfigurationAndInitDone : Prop :=
  ∀ s t : State, step s = .next t →
    (t.trace = s.trace ∨ ∃ e, t.trace = s.trace ++ [e]) ∧ t.cfg = s.cfg ∧ (s.initDone = true → t.initDone = true)

/-! ### Power-up and INIT -/

/-- The power-up values of R43, for every configuration. -/
def Obligations.PowerUpValues : Prop :=
  ∀ c : Config,
    (State.powerUp c).fsm = .idle ∧ (State.powerUp c).pending = initSeq ∧
    (State.powerUp c).cop = undefined 4 ∧ (State.powerUp c).caddr = undefined 15 ∧
    (State.powerUp c).cflag = .undef ∧ (State.powerUp c).cdata = undefined 8 ∧
    (State.powerUp c).acc = undefined 8 ∧ (State.powerUp c).rdata = undefined 8 ∧
    (State.powerUp c).rdataValid = false ∧
    (∀ p, (State.powerUp c).mode p = .input ∧ (State.powerUp c).out p = .undef) ∧
    (State.powerUp c).sr = undefined 16 ∧ (State.powerUp c).q = undefined 16 ∧
    (∀ a, memRead (State.powerUp c).mem a = Config.mem0 a) ∧
    (State.powerUp c).pendingWrite = none ∧
    ((State.powerUp c).faulted = false ∧ (State.powerUp c).fcode = 0 ∧ (State.powerUp c).finfo = none) ∧
    (State.powerUp c).initDone = false ∧ (State.powerUp c).trace = []

/-- A launch begins at power-up exactly when the clauses of R8 hold and the two delays have the lower bound 1 that R7
gives them (DEDUCED, log 1); any other configuration is refused, with no run (R218; the refusal is log 2's). -/
def Obligations.IllFormedConfigurationIsRefused : Prop :=
  ∀ c : Params,
    (([c.pinSdata, c.pinSclk, c.pinSlatch, c.pinD0, c.pinD0 + 1, c.pinD0 + 2, c.pinD0 + 3, c.pinD0 + 4, c.pinD0 + 5,
          c.pinD0 + 6, c.pinD0 + 7, c.pinWe].Nodup ∧
        1 ≤ c.eepromSize ∧ c.eepromSize ≤ 2 ^ 15 ∧ c.tWpMinNs ≤ c.tWpUs * 1000 ∧ c.tWcMs ≤ c.tSettleMs ∧
        1 ≤ c.tWpUs ∧ 1 ≤ c.tSettleMs) →
      ∃ h : c.WellFormed, launch c = .next (State.powerUp ⟨c, h⟩)) ∧
    (¬ ([c.pinSdata, c.pinSclk, c.pinSlatch, c.pinD0, c.pinD0 + 1, c.pinD0 + 2, c.pinD0 + 3, c.pinD0 + 4, c.pinD0 + 5,
          c.pinD0 + 6, c.pinD0 + 7, c.pinWe].Nodup ∧
        1 ≤ c.eepromSize ∧ c.eepromSize ≤ 2 ^ 15 ∧ c.tWpMinNs ≤ c.tWpUs * 1000 ∧ c.tWcMs ≤ c.tSettleMs ∧
        1 ≤ c.tWpUs ∧ 1 ≤ c.tSettleMs) →
      launch c = .refused .illFormedConfiguration)

/-- INIT from power-up: nine steps, the eight events of R241 in order, WE out and high, the shift pins out and low, the
data pins in and undriven, `sr` and `q` still `⊥`, and the core ready. -/
def Obligations.InitSequenceRuns : Prop :=
  ∀ c : Config, ∃ u, runSteps 9 (State.powerUp c) = .next u ∧
    u = { State.powerUp c with pending := [], initDone := true, modes := u.modes, outs := u.outs, trace := u.trace } ∧
    u.trace = [.drive .we true, .mode .we .output, .drive .sdata false, .drive .sclk false, .drive .slatch false,
      .mode .sdata .output, .mode .sclk .output, .mode .slatch .output] ∧
    (u.lvl .we = .high ∧ u.lvl .sdata = .low ∧ u.lvl .sclk = .low ∧ u.lvl .slatch = .low) ∧
    (∀ i, u.mode (.d i) = .input ∧ u.out (.d i) = .undef) ∧
    u.cmdReady = true

/-! ### What each command does -/

/-- SETADDR between commands: after its 51 pin events the chain and the latch hold the address word, SDATA its last
bit, SCLK and SLATCH low; nothing else has changed since acceptance, and the core is ready again (R132, R133). -/
def Obligations.SetaddrLatchesTheAddressWord : Prop :=
  ∀ (s : State) (addr : Addr) (rw : Bool), s.Idle →
    ∃ t u, exec (.setaddr addr rw) s = .next t ∧ runSteps 51 t = .next u ∧
      t = s.accepted (encode (.setaddr addr rw)) (setAddressSeq addr rw) ∧
      u = { t with
        pending := [], sr := defined (addrWord addr rw), q := defined (addrWord addr rw), outs := u.outs,
        trace := t.trace ++ eventsOf (setAddressSeq addr rw) } ∧
      (u.out .sdata = levelOf (addr.getLsbD 0) ∧ u.out .sclk = .low ∧ u.out .slatch = .low) ∧
      (u.out .we = s.out .we ∧ ∀ i, u.out (.d i) = s.out (.d i)) ∧
      (∀ a, memRead u.mem a = memRead s.mem a) ∧ u.Idle

/-- SetAddressSeq, in SETADDR, READ or WRITE, leaves `sr = q = word` whatever `sr`, `q` and SLATCH held, a `⊥` among
them (R134; WE high and no fault, so that no check of R79 stops it). -/
def Obligations.SetAddressSeqReplacesEveryStage : Prop :=
  ∀ (s : State) (addr : Addr) (rw : Bool) (rest : List MicroOp), s.SerializerReady →
    s.pending = setAddressSeq addr rw ++ rest →
    ∃ u, runSteps 51 s = .next u ∧ u.sr = defined (addrWord addr rw) ∧ u.q = defined (addrWord addr rw) ∧
      u.faulted = false ∧ u.pending = rest

/-- The EEPROM never sees a partial shift: `q` keeps its value through the first 49 events of SetAddressSeq and is the
whole word from event 50, `Drive(SLATCH, 1)`, on (R135). SLATCH has a defined level, as INIT leaves it. -/
def Obligations.LatchChangesOnlyAtEventFifty : Prop :=
  ∀ (s : State) (addr : Addr) (rw : Bool) (rest : List MicroOp) (k : Nat), s.SerializerReady →
    s.out .slatch ≠ .undef → s.pending = setAddressSeq addr rw ++ rest → k ≤ 51 →
    ∃ u, runSteps k s = .next u ∧ (k ≤ 49 → u.q = s.q) ∧ (50 ≤ k → u.q = defined (addrWord addr rw)) ∧
      u.trace.length = s.trace.length + k ∧ (k = 49 → u.pending = [.drive .slatch true, .drive .slatch false] ++ rest)

/-- The k-th rising edge of SCLK loads bit `16 - k` of the address word into stage 0: edges 1 to 8 the bits of `hi`, 9
to 16 those of `lo` (R136). -/
def Obligations.RisingEdgesCarryTheWordInOrder : Prop :=
  ∀ (s : State) (addr : Addr) (rw : Bool) (rest : List MicroOp) (k : Nat), s.SerializerReady →
    s.pending = setAddressSeq addr rw ++ rest → 1 ≤ k → k ≤ 16 →
    ∃ u v, runSteps (3 * (k - 1) + 1) s = .next u ∧ u.lvl .sclk = .low ∧
      runSteps 1 u = .next v ∧ v.lvl .sclk = .high ∧
      v.sr[0] = levelOf ((addrWord addr rw).getLsbD (16 - k)) ∧
      (k ≤ 8 → v.sr[0] = levelOf ((addrHi addr rw).getLsbD (8 - k))) ∧
      (9 ≤ k → v.sr[0] = levelOf ((addrLo addr).getLsbD (16 - k)))

/-- The direction bit: after `SetAddressSeq(a, 1)` `q[15] = 0`, after `SetAddressSeq(a, 0)` `q[15] = 1`, for every
address, and the address lines hold it (R137). -/
def Obligations.DirectionMaskIsTheInverseOfRw : Prop :=
  ∀ (s : State) (addr : Addr) (rw : Bool) (rest : List MicroOp), s.SerializerReady →
    s.pending = setAddressSeq addr rw ++ rest →
    ∃ u, runSteps 51 s = .next u ∧ u.q[15] = levelOf (!rw) ∧
      ∀ i : Fin 15, u.q[i.val] = levelOf (addr.getLsbD i.val)

/-- BUSIN between commands: after 8 events every data pin is an input and undriven, its output register kept; nothing
else has changed since acceptance (R150, R151). -/
def Obligations.BusinTurnsTheBusToInput : Prop :=
  ∀ s : State, s.Idle →
    ∃ t u, exec .busin s = .next t ∧ runSteps 8 t = .next u ∧ t = s.accepted 0x20000000 (busModeSeq .input) ∧
      u = { t with pending := [], modes := u.modes, trace := t.trace ++ eventsOf (busModeSeq .input) } ∧
      (∀ i, u.mode (.d i) = .input ∧ u.lvl (.d i) = .undef) ∧
      (∀ p, (∀ i, p ≠ .d i) → u.mode p = s.mode p) ∧
      (∀ a, memRead u.mem a = memRead s.mem a) ∧ u.Idle

/-- BUSOUT between commands: after 8 events every data pin is an output and drives its kept output register, a `⊥` with
no fault; nothing else has changed since acceptance (R150, R152). -/
def Obligations.BusoutTurnsTheBusToOutput : Prop :=
  ∀ s : State, s.Idle →
    ∃ t u, exec .busout s = .next t ∧ runSteps 8 t = .next u ∧ t = s.accepted 0x30000000 (busModeSeq .output) ∧
      u = { t with pending := [], modes := u.modes, trace := t.trace ++ eventsOf (busModeSeq .output) } ∧
      (∀ i, u.mode (.d i) = .output ∧ u.lvl (.d i) = s.out (.d i)) ∧
      (∀ p, (∀ i, p ≠ .d i) → u.mode p = s.mode p) ∧
      (∀ a, memRead u.mem a = memRead s.mem a) ∧ u.Idle

/-- WEPULSE between commands, the bus out and driving `d`, the latch holding a write-direction word in range: the byte
at the latched address becomes `d`, every other byte and everything else since acceptance is unchanged (R153, R154). R154
says so of the reference responder; that memory is written under the unconstrained one too is log 14's choice (DESIGN
CHOICE). -/
def Obligations.WepulseCommitsTheDrivenByte : Prop :=
  ∀ (s : State) (w : AddrWord) (d : Byte), s.Idle → s.mem.wf → (∀ i, s.mode (.d i) = .output) → s.q = defined w →
    (∀ i : Fin 8, s.out (.d i) = levelOf (d.getLsbD i.val)) → dirMask w = true →
    (addrLines w).toNat < s.cfg.params.eepromSize →
    ∃ t u, exec .wepulse s = .next t ∧ runSteps 4 t = .next u ∧ t = s.accepted 0x40000000 (wePulseSeq s.cfg) ∧
      u = { t with pending := [], mem := u.mem, trace := t.trace ++ eventsOf (wePulseSeq s.cfg) } ∧
      memRead u.mem (addrLines w).toNat = d ∧
      (∀ a, a ≠ (addrLines w).toNat → memRead u.mem a = memRead s.mem a) ∧ u.Idle

/-- WEPULSE whose capture a check of R78 stops: it faults at its first event with that check's code, pin and address,
the WE line left low and the other three micro-operations left pending (R154, R213). -/
def Obligations.WepulseFaultsAtItsFirstEvent : Prop :=
  ∀ (s : State) (r : Raise), s.Idle → captureCheck s = .error r →
    ∃ t u, exec .wepulse s = .next t ∧ runSteps 1 t = .next u ∧
      u = { t with
        pending := [.delayUs s.cfg.params.tWpUs, .drive .we true, .delayMs s.cfg.params.tSettleMs],
        outs := u.outs, trace := t.trace ++ [.drive .we false], faulted := true, fcode := faultCodeOf r.cause,
        finfo := some { word := some 0x40000000, event := s.trace.length + 1, pin := r.pin, addr := r.addr } } ∧
      u.out .we = .low ∧ (∀ p, p ≠ .we → u.out p = s.out p)

/-- READ between commands with the reference responder and the address in range: after 67 pin events and 5 internal
micro-operations `rdata` is the cell's byte, the bus is in, the latch holds the address with M = 0; no byte of memory
and nothing else has changed since acceptance (R182). -/
def Obligations.ReadReturnsTheCell : Prop :=
  ∀ (s : State) (addr : Addr), s.Idle → s.cfg.params.responder = .reference →
    addr.toNat < s.cfg.params.eepromSize →
    ∃ t u, exec (.read addr) s = .next t ∧ runSteps 72 t = .next u ∧
      t = s.accepted (encode (.read addr)) (readSeq addr) ∧
      u = { t with
        pending := [], modes := u.modes, outs := u.outs, sr := defined (addr.setWidth 16),
        q := defined (addr.setWidth 16), acc := defined (memRead s.mem addr.toNat),
        rdata := defined (memRead s.mem addr.toNat), rdataValid := true,
        trace := t.trace ++ eventsOf (busModeSeq .input ++ setAddressSeq addr true) ++
          sampleEvents (memRead s.mem addr.toNat) } ∧
      (∀ i, u.mode (.d i) = .input) ∧ (∀ p, (∀ i, p ≠ .d i) → u.mode p = s.mode p) ∧
      (u.out .sdata = levelOf (addr.getLsbD 0) ∧ u.out .sclk = .low ∧ u.out .slatch = .low ∧
        u.out .we = s.out .we ∧ ∀ i, u.out (.d i) = s.out (.d i)) ∧
      (∀ a, memRead u.mem a = memRead s.mem a) ∧ u.Idle

/-- READ with the unconstrained responder: `rdata` is the eight free draws, D7's as bit 7, whatever the memory holds
(R81, R182; the draws are the free values of log 13). -/
def Obligations.ReadUnderUnconstrainedResponderReturnsTheDraws : Prop :=
  ∀ (s : State) (addr : Addr), s.Idle → s.cfg.params.responder = .unconstrained →
    addr.toNat < s.cfg.params.eepromSize →
    ∃ t u, exec (.read addr) s = .next t ∧ runSteps 72 t = .next u ∧
      (∀ i : Fin 8, u.rdata[i.val] = levelOf (Config.freeDraw (s.draws + (7 - i.val)))) ∧
      u.rdataValid = true ∧ u.draws = s.draws + 8 ∧ (∀ a, memRead u.mem a = memRead s.mem a) ∧ u.Idle

/-- WRITE between commands with the address in range: after 71 pin events and 3 internal micro-operations the cell holds
the byte and every other cell its old one, the bus is out and drives the byte, the latch holds the address with M = 1;
`rdata` and everything else since acceptance are unchanged (R183). R183 says so of the reference responder; that memory is
written under the unconstrained one too is log 14's choice (DESIGN CHOICE). -/
def Obligations.WriteStoresTheByte : Prop :=
  ∀ (s : State) (addr : Addr) (data : Byte), s.Idle → s.mem.wf → addr.toNat < s.cfg.params.eepromSize →
    ∃ t u, exec (.write addr data) s = .next t ∧ runSteps 74 t = .next u ∧
      t = s.accepted (encode (.write addr data)) (writeSeq s.cfg addr data) ∧
      u = { t with
        pending := [], modes := u.modes, outs := u.outs, sr := defined (0x8000#16 ||| addr.setWidth 16),
        q := defined (0x8000#16 ||| addr.setWidth 16), mem := u.mem,
        trace := t.trace ++ eventsOf (writeSeq s.cfg addr data) } ∧
      (∀ i, u.mode (.d i) = .output) ∧ (∀ p, (∀ i, p ≠ .d i) → u.mode p = s.mode p) ∧
      (u.out .sdata = levelOf (addr.getLsbD 0) ∧ u.out .sclk = .low ∧ u.out .slatch = .low ∧
        u.out .we = .high ∧ ∀ i : Fin 8, u.out (.d i) = levelOf (data.getLsbD i.val)) ∧
      memRead u.mem addr.toNat = data ∧ (∀ a, a ≠ addr.toNat → memRead u.mem a = memRead s.mem a) ∧ u.Idle

/-- The round trip from the host's port: in a launch's ready state, the words of `WRITE a, v` and `READ a` run through
148 steps with no fault, and then `rdata = v`, `rdata_valid = 1` and `mem[a] = v` (R186). -/
def Obligations.WriteThenReadReturnsTheByte : Prop :=
  ∀ (s : State) (a : Addr) (v : Byte), s.LaunchInv → s.mem.wf → s.cmdReady = true →
    s.cfg.params.responder = .reference → a.toNat < s.cfg.params.eepromSize →
    s.hostCmds = [encode (.write a v), encode (.read a)] →
    ∃ u, runSteps 148 s = .next u ∧ u.faulted = false ∧ u.rdata = defined v ∧ u.rdataValid = true ∧
      memRead u.mem a.toNat = v ∧ u.GoodEnd = true

/-- After `WRITE a, d`, `SETADDR b, W` and `WEPULSE` write `d` to `b` as well (R154's corner case). R154 speaks of the
reference responder; that memory is written under the unconstrained one too is log 14's choice (DESIGN CHOICE). -/
def Obligations.SetaddrAndWepulseRewriteTheDrivenByte : Prop :=
  ∀ (s : State) (a b : Addr) (d : Byte), s.LaunchInv → s.mem.wf → s.cmdReady = true →
    a.toNat < s.cfg.params.eepromSize → b.toNat < s.cfg.params.eepromSize →
    s.hostCmds = [encode (.write a d), encode (.setaddr b false), encode .wepulse] →
    ∃ u, runSteps 132 s = .next u ∧ u.faulted = false ∧ memRead u.mem b.toNat = d ∧ memRead u.mem a.toNat = d ∧
      ∀ c, c ≠ a.toNat → c ≠ b.toNat → memRead u.mem c = memRead s.mem c

/-- Two READs of one address return the same byte (R68, R182). -/
def Obligations.ReadTwiceReturnsTheSameByte : Prop :=
  ∀ (s : State) (a : Addr), s.LaunchInv → s.cmdReady = true → s.cfg.params.responder = .reference →
    a.toNat < s.cfg.params.eepromSize → s.hostCmds = [encode (.read a), encode (.read a)] →
    ∃ u v, runSteps 73 s = .next u ∧ runSteps 73 u = .next v ∧ u.rdataValid = true ∧ v.rdataValid = true ∧
      v.rdata = u.rdata ∧ ∀ c, memRead v.mem c = memRead s.mem c

/-- After a WRITE the data pins drive the written byte; after a READ that follows they are inputs and their output
registers still hold it; a BUSOUT after that drives it again (R189). -/
def Obligations.DataPinsKeepTheWrittenByte : Prop :=
  ∀ (s : State) (a : Addr) (d : Byte), s.LaunchInv → s.cmdReady = true → a.toNat < s.cfg.params.eepromSize →
    s.hostCmds = [encode (.write a d), encode (.read a), encode .busout] →
    ∃ u v w, runSteps 75 s = .next u ∧ runSteps 73 u = .next v ∧ runSteps 9 v = .next w ∧
      (∀ i : Fin 8, u.lvl (.d i) = levelOf (d.getLsbD i.val)) ∧
      (∀ i : Fin 8, v.mode (.d i) = .input ∧ v.out (.d i) = levelOf (d.getLsbD i.val)) ∧
      (∀ i : Fin 8, w.lvl (.d i) = levelOf (d.getLsbD i.val))

/-- The pin events of each command, in the table of R184: every micro-operation appends one event if it is a pin
micro-operation and none if it is not (R22), and the expansions hold 67, 71, 51, 8, 8 and 4 of them, in the parts the
table gives; a faulting acceptance appends its `Cmd` event alone. -/
def Obligations.PinEventCounts : Prop :=
  (∀ (op : MicroOp) (s : State), (perform op s).trace.length = s.trace.length + if op.isPin then 1 else 0) ∧
  (∀ a, (readSeq a).countP MicroOp.isPin = 67 ∧
    (readSeq a).filter MicroOp.isPin = busModeSeq .input ++ setAddressSeq a true ++ sampleBusSeq) ∧
  (∀ c a d, (writeSeq c a d).countP MicroOp.isPin = 71 ∧
    (writeSeq c a d).filter MicroOp.isPin =
      busModeSeq .output ++ setAddressSeq a false ++ driveBusSeq d ++ wePulseSeq c) ∧
  (∀ a rw, (setAddressSeq a rw).countP MicroOp.isPin = 51) ∧
  (∀ m, (busModeSeq m).countP MicroOp.isPin = 8) ∧
  (∀ c, (wePulseSeq c).countP MicroOp.isPin = 4) ∧
  (∀ b b', (shiftOutByte b ++ shiftOutByte b').countP MicroOp.isPin = 48) ∧ latchPulse.countP MicroOp.isPin = 3 ∧
  sampleBusSeq.countP MicroOp.isPin = 8 ∧ (∀ d, (driveBusSeq d).countP MicroOp.isPin = 8) ∧
  (∀ (s t : State) (i : Instr), exec i s = .next t → t.faulted = true → t.trace = s.trace ++ [.cmd (encode i)]) ∧
  (∀ (s t : State) (w : CmdWord), issueIllegal w s = .next t → t.trace = s.trace ++ [.cmd w])

/-! ### Devices and faults -/

/-- The level of a pin, and what the EEPROM sees on WE (R29, R83). -/
def Obligations.PinLevels : Prop :=
  ∀ s : State,
    (∀ p, (s.mode p = .output → s.lvl p = s.out p) ∧ (s.mode p = .input → s.lvl p = .undef)) ∧
    (s.lvl .we = .high → s.weLvl = true) ∧ (s.lvl .we = .low → s.weLvl = false) ∧
    (s.lvl .we = .undef → s.weLvl = true)

/-- The reactions of the shift chain to every pair of SCLK levels (R74). -/
def Obligations.ShiftChainReactions : Prop :=
  ∀ (s : State) (old : Level),
    (old = .low → s.lvl .sclk = .high →
      (shiftEdge old s).sr[0] = s.lvl .sdata ∧ ∀ i : Fin 15, (shiftEdge old s).sr[i.val + 1] = s.sr[i.val]) ∧
    (old ≠ s.lvl .sclk → (old = .undef ∨ s.lvl .sclk = .undef) → (shiftEdge old s).sr = undefined 16) ∧
    ((old = .high ∧ s.lvl .sclk = .low ∨ old = s.lvl .sclk) → shiftEdge old s = s) ∧
    shiftEdge old s = { s with sr := (shiftEdge old s).sr }

/-- The reactions of the output latch to every pair of SLATCH levels (R75). -/
def Obligations.OutputLatchReactions : Prop :=
  ∀ (s : State) (old : Level),
    (old = .low → s.lvl .slatch = .high → (latchEdge old s).q = s.sr) ∧
    (old ≠ s.lvl .slatch → (old = .undef ∨ s.lvl .slatch = .undef) → (latchEdge old s).q = undefined 16) ∧
    ((old = .high ∧ s.lvl .slatch = .low ∨ old = s.lvl .slatch) → latchEdge old s = s) ∧
    latchEdge old s = { s with q := (latchEdge old s).q }

/-- The checks of a sample in R77's order, each with its cause, pin and address; past them the reference responder
answers bit `i` of the addressed cell. -/
def Obligations.SampleChecksInOrder : Prop :=
  ∀ (s : State) (i : Fin 8),
    ((∃ j, s.mode (.d j) ≠ .input) → sampleCheck i s = .error ⟨.busDirection, some (.d i), none⟩) ∧
    ((∀ j, s.mode (.d j) = .input) →
      (s.weLvl = false → sampleCheck i s = .error ⟨.directionMask, some (.d i), none⟩) ∧
      (s.weLvl = true →
        ((∃ k : Fin 16, s.q[k.val] = .undef) → sampleCheck i s = .error ⟨.undefinedLevel, some (.d i), none⟩) ∧
        (∀ w : AddrWord, s.q = defined w →
          (w.getLsbD 15 = true → sampleCheck i s = .error ⟨.directionMask, some (.d i), none⟩) ∧
          (w.getLsbD 15 = false →
            (s.cfg.params.eepromSize ≤ (w.extractLsb' 0 15).toNat →
              sampleCheck i s = .error ⟨.addressOutOfRange, none, some (w.extractLsb' 0 15)⟩) ∧
            ((w.extractLsb' 0 15).toNat < s.cfg.params.eepromSize →
              (s.pendingWrite ≠ none → sampleCheck i s = .error ⟨.undefinedLevel, some (.d i), none⟩) ∧
              (s.pendingWrite = none → sampleCheck i s = .ok (w.extractLsb' 0 15) ∧
                (s.cfg.params.responder = .reference →
                  (perform (.sampleInto i) s).trace = s.trace ++
                    [.sample (.d i) (levelOf ((memRead s.mem (w.extractLsb' 0 15).toNat).getLsbD i.val))])))))))

/-- When WE falls the EEPROM captures: the checks in R78's order, each with its cause, pin and address, and past them the
latched address and the byte on the data registers become the pending write. -/
def Obligations.CaptureChecksInOrder : Prop :=
  ∀ s : State,
    (∀ before : State, before.weLvl = true → s.weLvl = false → react .we before s = capture s) ∧
    (∀ r, captureCheck s = .error r → capture s = s.raise r) ∧
    ((∃ j, s.mode (.d j) ≠ .output) → captureCheck s = .error ⟨.busDirection, some .we, none⟩) ∧
    ((∀ j, s.mode (.d j) = .output) →
      (((∃ k : Fin 16, s.q[k.val] = .undef) ∨ (∃ j, s.out (.d j) = .undef)) →
        captureCheck s = .error ⟨.undefinedLevel, some .we, none⟩) ∧
      (∀ (w : AddrWord) (d : Byte), s.q = defined w → (∀ j : Fin 8, s.out (.d j) = levelOf (d.getLsbD j.val)) →
        (w.getLsbD 15 = false → captureCheck s = .error ⟨.directionMask, some .we, none⟩) ∧
        (w.getLsbD 15 = true →
          (s.cfg.params.eepromSize ≤ (w.extractLsb' 0 15).toNat →
            captureCheck s = .error ⟨.addressOutOfRange, none, some (w.extractLsb' 0 15)⟩) ∧
          ((w.extractLsb' 0 15).toNat < s.cfg.params.eepromSize →
            (s.pendingWrite ≠ none → captureCheck s = .error ⟨.undefinedLevel, some .we, none⟩) ∧
            (s.pendingWrite = none → captureCheck s = .ok (w.extractLsb' 0 15, d) ∧
              capture s = { s with pendingWrite := some (w.extractLsb' 0 15, d) })))))

/-- While WE is low, a mode change or a drive of a data pin faults with F_UNDEFINED_LEVEL at that pin, after its pin
update and event (R79, R213; the order is log 12's, the word log 8's). -/
def Obligations.DataPinEventsWhileWeIsLowFault : Prop :=
  ∀ (s : State) (i : Fin 8), s.faulted = false → s.weLvl = false →
    (∀ m, (perform (.mode (.d i) m) s).fcode = 5 ∧ (perform (.mode (.d i) m) s).faulted = true ∧
      (perform (.mode (.d i) m) s).mode (.d i) = m ∧
      (perform (.mode (.d i) m) s).trace = s.trace ++ [.mode (.d i) m] ∧
      (perform (.mode (.d i) m) s).finfo
        = some { word := lastCmd s.trace, event := s.trace.length, pin := some (.d i), addr := none }) ∧
    (∀ v, (perform (.drive (.d i) v) s).fcode = 5 ∧ (perform (.drive (.d i) v) s).faulted = true ∧
      (perform (.drive (.d i) v) s).out (.d i) = levelOf v ∧
      (perform (.drive (.d i) v) s).trace = s.trace ++ [.drive (.d i) v] ∧
      (perform (.drive (.d i) v) s).finfo
        = some { word := lastCmd s.trace, event := s.trace.length, pin := some (.d i), addr := none })

/-- While WE is low, an SLATCH event that changes `q`, a drive or a mode change, faults with F_UNDEFINED_LEVEL at SLATCH
after its pin update and event (R79, R213; `q` is changed first, log 11; the word is log 8's). -/
def Obligations.LatchChangeWhileWeIsLowFaults : Prop :=
  ∀ s : State, s.faulted = false → s.weLvl = false →
    (∀ v, (perform (.drive .slatch v) s).q ≠ s.q →
      (perform (.drive .slatch v) s).faulted = true ∧ (perform (.drive .slatch v) s).fcode = 5 ∧
      (perform (.drive .slatch v) s).out .slatch = levelOf v ∧
      (perform (.drive .slatch v) s).trace = s.trace ++ [.drive .slatch v] ∧
      (perform (.drive .slatch v) s).finfo
        = some { word := lastCmd s.trace, event := s.trace.length, pin := some .slatch, addr := none }) ∧
    (∀ m, (perform (.mode .slatch m) s).q ≠ s.q →
      (perform (.mode .slatch m) s).faulted = true ∧ (perform (.mode .slatch m) s).fcode = 5 ∧
      (perform (.mode .slatch m) s).mode .slatch = m ∧
      (perform (.mode .slatch m) s).trace = s.trace ++ [.mode .slatch m] ∧
      (perform (.mode .slatch m) s).finfo
        = some { word := lastCmd s.trace, event := s.trace.length, pin := some .slatch, addr := none })

/-- `DelayMs` commits a pending write exactly when WE is high; with none pending or WE low it only appends its event.
While a write is pending every sample and every capture faults (R80). -/
def Obligations.SettleDelayCommitsThePendingWrite : Prop :=
  ∀ (s : State) (n : Nat),
    (∀ a d, s.pendingWrite = some (a, d) → s.weLvl = true →
      perform (.delayMs n) s = { s with
        trace := s.trace ++ [.delayMs n], mem := memWrite s.mem a.toNat d, pendingWrite := none }) ∧
    ((s.pendingWrite = none ∨ s.weLvl = false) →
      perform (.delayMs n) s = { s with trace := s.trace ++ [.delayMs n] }) ∧
    (s.pendingWrite ≠ none → s.faulted = false →
      (capture s).faulted = true ∧ ∀ i, (perform (.sampleInto i) s).faulted = true)

/-- Raising a fault: the first one sets the flag, the record and the code of its cause, 1 to 5 as R211 numbers them, and
leaves everything else; a later one changes nothing (R35, R211, R212, R213; the word is log 8's). -/
def Obligations.FirstFaultIsRecordedAndKept : Prop :=
  ∀ (s : State) (r : Raise),
    (s.faulted = true → s.raise r = s) ∧
    (s.faulted = false → s.raise r = { s with
      faulted := true, fcode := faultCodeOf r.cause,
      finfo := some { word := lastCmd s.trace, event := s.trace.length - 1, pin := r.pin, addr := r.addr } }) ∧
    (s.faulted = false →
      (r.cause = .illegalCommand → (s.raise r).fcode = 1) ∧ (r.cause = .addressOutOfRange → (s.raise r).fcode = 2) ∧
      (r.cause = .busDirection → (s.raise r).fcode = 3) ∧ (r.cause = .directionMask → (s.raise r).fcode = 4) ∧
      (r.cause = .undefinedLevel → (s.raise r).fcode = 5))

/-- A faulting sample appends `Sample(Di, ⊥)` and records the fault at that event; the accumulator keeps its value
(R77, R213; the accumulator is log 10's, the word log 8's). -/
def Obligations.FaultingSampleTracesUndefined : Prop :=
  ∀ (s : State) (i : Fin 8) (r : Raise), s.faulted = false → sampleCheck i s = .error r →
    perform (.sampleInto i) s = { s with
      trace := s.trace ++ [.sample (.d i) .undef], faulted := true, fcode := faultCodeOf r.cause,
      finfo := some { word := lastCmd s.trace, event := s.trace.length, pin := r.pin, addr := r.addr } }

/-- The result registers: `AccToRdata` copies `acc` and sets the flag, no other micro-operation writes either, accepting
a command clears the flag and keeps the byte, and at power-up they are `⊥` and 0 (R26). -/
def Obligations.OnlyAccToRdataWritesTheResult : Prop :=
  (∀ (s : State) (op : MicroOp),
    ((perform .accToRdata s).rdata = s.acc ∧ (perform .accToRdata s).rdataValid = true) ∧
    (op ≠ .accToRdata → (perform op s).rdata = s.rdata ∧ (perform op s).rdataValid = s.rdataValid)) ∧
  (∀ (s t : State) (i : Instr), exec i s = .next t → t.rdata = s.rdata ∧ t.rdataValid = false) ∧
  (∀ (s t : State) (w : CmdWord), issueIllegal w s = .next t → t.rdata = s.rdata ∧ t.rdataValid = false) ∧
  ∀ c : Config, (State.powerUp c).rdata = undefined 8 ∧ (State.powerUp c).rdataValid = false

/-- No responder rule reads `sr`: the answers and their checks, the capture, the faults while WE is low and the commit
are the same whatever the chain holds (R82). -/
def Obligations.ResponderNeverReadsTheChain : Prop :=
  ∀ (s : State) (v : LVec 16) (i : Fin 8) (n : Nat),
    perform (.sampleInto i) { s with sr := v } = { perform (.sampleInto i) s with sr := v } ∧
    perform (.delayMs n) { s with sr := v } = { perform (.delayMs n) s with sr := v } ∧
    (∀ b, perform (.drive .we b) { s with sr := v } = { perform (.drive .we b) s with sr := v } ∧
      perform (.drive (.d i) b) { s with sr := v } = { perform (.drive (.d i) b) s with sr := v }) ∧
    (∀ m, perform (.mode .we m) { s with sr := v } = { perform (.mode .we m) s with sr := v } ∧
      perform (.mode (.d i) m) { s with sr := v } = { perform (.mode (.d i) m) s with sr := v })

/-! ### Memory -/

/-- A read of the cell last written gives the byte written and every other read is as before; a write repeated changes
nothing (R68, R85). -/
def Obligations.ReadAfterWrite : Prop :=
  ∀ (m : Memory) (a : Nat) (d : Byte), m.wf →
    memRead (memWrite m a d) a = d ∧ (∀ b, b ≠ a → memRead (memWrite m a d) b = memRead m b) ∧
    memWrite (memWrite m a d) a d = memWrite m a d

/-- The array changes only at a `DelayMs` with a captured write and WE high, and then only in the captured cell
(R80, R86; under the unconstrained responder log 14's choice). -/
def Obligations.ArrayChangesOnlyAtTheCommit : Prop :=
  ∀ s t : State, step s = .next t → t.mem ≠ s.mem →
    ∃ n rest a d, s.pending = .delayMs n :: rest ∧ s.pendingWrite = some (a, d) ∧ s.weLvl = true ∧
      t.mem = memWrite s.mem a.toNat d

/-- The output latch changes only at a step that performs an event on SLATCH (R31, R75). -/
def Obligations.LatchChangesOnlyAtSlatchEvents : Prop :=
  ∀ s t : State, step s = .next t → t.q ≠ s.q →
    ∃ rest, (∃ v, s.pending = .drive .slatch v :: rest) ∨ (∃ m, s.pending = .mode .slatch m :: rest)

/-! ### Invariants -/

/-- The array's canonical form and range are kept by every step. -/
def Obligations.StepKeepsTheArrayForm : Prop := ∀ s t : State, s.MemInv → step s = .next t → t.MemInv

/-- The array has its form at every power-up. -/
def Obligations.PowerUpHasTheArrayForm : Prop := ∀ c : Config, (State.powerUp c).MemInv

/-- The invariant of a launch is kept by every step: INIT's order, the control pins' modes, the shape of a write pulse,
the Cell Accessor's transitions, the idle levels of SCLK and SLATCH. -/
def Obligations.StepKeepsTheLaunchInvariant : Prop := ∀ s t : State, s.LaunchInv → step s = .next t → t.LaunchInv

/-- The invariant of a launch holds at every power-up. -/
def Obligations.PowerUpHasTheLaunchInvariant : Prop := ∀ c : Config, (State.powerUp c).LaunchInv

/-- In a launch, a ready core is between commands: the conditions the command statements ask for. -/
def Obligations.ReadyLaunchIsIdle : Prop := ∀ s : State, s.LaunchInv → s.cmdReady = true → s.Idle

/-- The write-enable invariant: past INIT and before any fault WE is an output, and it is high except strictly between
events 1 and 3 of a WePulseSeq, where the only event is `DelayUs(T_WP_US)`; before that the EEPROM sees it high (R158).
-/
def Obligations.WriteEnableIsHighOutsideThePulse : Prop :=
  ∀ s : State, s.LaunchInv → s.faulted = false →
    (s.initDone = true →
      s.mode .we = .output ∧
      (s.out .we = .high ∨ (s.out .we = .low ∧ ∃ rest,
        s.pending = .delayUs s.cfg.params.tWpUs :: .drive .we true :: .delayMs s.cfg.params.tSettleMs :: rest ∨
        s.pending = .drive .we true :: .delayMs s.cfg.params.tSettleMs :: rest))) ∧
    (s.initDone = false → s.weLvl = true)

/-- The Cell Accessor moves only along the transitions of R181, and comes back to Idle when nothing is pending. -/
def Obligations.CellAccessorTransitions : Prop :=
  ∀ s t : State, s.LaunchInv → step s = .next t →
    (t.fsm = s.fsm ∨ fsmEdge s.fsm t.fsm = true) ∧ (s.faulted = false → s.pending = [] → s.fsm = .idle)

/-! ### The assembler -/

/-- A line's command assembles exactly when its numbers are in range; out of range is an error, never truncated, and
the assembled operands are the numbers written (R115). -/
def Obligations.AssemblerNeverTruncates : Prop :=
  (∀ addr rw, (AsmCmd.setaddr addr rw).assemble = if h : addr < 2 ^ 15 then some (.setaddr ⟨⟨addr, h⟩⟩ rw) else none) ∧
  (∀ addr, (AsmCmd.read addr).assemble = if h : addr < 2 ^ 15 then some (.read ⟨⟨addr, h⟩⟩) else none) ∧
  (∀ addr data, (AsmCmd.write addr data).assemble =
    if h : addr < 2 ^ 15 ∧ data < 2 ^ 8 then some (.write ⟨⟨addr, h.1⟩⟩ ⟨⟨data, h.2⟩⟩) else none) ∧
  AsmCmd.busin.assemble = some .busin ∧ AsmCmd.busout.assemble = some .busout ∧
  AsmCmd.wepulse.assemble = some .wepulse
end

