-- ==== Sys2Proof/Laws/Levels.lean ====
section
/-! SUPPORT. Registers of levels: reading a bit of a defined register, and what sixteen or eight shifts leave. -/

namespace Sys2Proof.Machine

@[simp] theorem levelOf_ne_undef (b : Bool) : levelOf b ≠ .undef := by cases b <;> decide

@[simp] theorem levelOf_eq_high (b : Bool) : levelOf b = .high ↔ b = true := by cases b <;> decide

@[simp] theorem getElem_defined {n : Nat} (b : BitVec n) (i : Nat) (h : i < n) :
    (defined b)[i] = levelOf (b.getLsbD i) := by
  unfold defined; rw [Vector.getElem_ofFn]

/-- The value of a defined register. -/
@[simp] theorem bits?_defined {n : Nat} (b : BitVec n) : bits? (defined b) = some b := by
  unfold bits?
  rw [if_pos (by simp)]
  congr 1
  apply BitVec.eq_of_getElem_eq
  intro i hi
  simp

theorem defined_injective {n : Nat} {a b : BitVec n} (h : defined a = defined b) : a = b := by
  have := congrArg bits? h
  simpa using this

@[simp] theorem getElem_shiftIn {n : Nat} (v : LVec n) (b : Level) (i : Nat) (h : i < n) :
    (shiftIn v b)[i] = if i = 0 then b else v[i - 1] := by simp [shiftIn]

/-- After the bits of `l` are shifted in, bit `i` is the `i`-th last of them, or an old bit. -/
theorem getElem_foldl_shiftIn {n : Nat} (l : List Level) (v : LVec n) (i : Nat) (h : i < n) :
    (l.foldl shiftIn v)[i] = if hl : i < l.length then l[l.length - 1 - i] else v[i - l.length] := by
  induction l generalizing v with
  | nil => simp
  | cons b l ih =>
    rw [List.foldl_cons, ih]
    by_cases hi : i < l.length
    · have : i < (b :: l).length := by simp; omega
      rw [dif_pos hi, dif_pos this]
      have e : (b :: l).length - 1 - i = (l.length - 1 - i) + 1 := by simp; omega
      simp only [e, List.getElem_cons_succ]
    · rw [dif_neg hi, getElem_shiftIn]
      by_cases he : i = l.length
      · subst he; simp
      · have h2 : ¬ i < (b :: l).length := by simp; omega
        rw [dif_neg h2, if_neg (by omega)]
        congr 1

/-- Shifting in all the bits of `w`, most significant first, leaves `w`, whatever was there (R103, R134). -/
theorem foldl_shiftIn_eq_defined {n : Nat} (l : List Level) (w : BitVec n) (v : LVec n) (hl : l.length = n)
    (hw : ∀ (k : Nat) (hk : k < l.length), l[k] = levelOf (w.getLsbD (n - 1 - k))) :
    l.foldl shiftIn v = defined w := by
  apply Vector.ext
  intro i hi
  rw [getElem_foldl_shiftIn, dif_pos (by omega), hw, getElem_defined]
  congr 2
  omega

end Sys2Proof.Machine
end

