-- ==== Sys2Proof/Laws/State.lean ====
section
/-! SUPPORT. One lemma per field per update of the state, so that no later proof unfolds an update; what raising a
fault leaves unchanged. -/

namespace Sys2Proof.Machine

variable (s : State)

@[simp] theorem setMode_cfg (p : Pin) (m : PinMode) : (s.setMode p m).cfg = s.cfg := rfl
@[simp] theorem setMode_pending (p : Pin) (m : PinMode) : (s.setMode p m).pending = s.pending := rfl
@[simp] theorem setMode_fsm (p : Pin) (m : PinMode) : (s.setMode p m).fsm = s.fsm := rfl
@[simp] theorem setMode_cop (p : Pin) (m : PinMode) : (s.setMode p m).cop = s.cop := rfl
@[simp] theorem setMode_caddr (p : Pin) (m : PinMode) : (s.setMode p m).caddr = s.caddr := rfl
@[simp] theorem setMode_cflag (p : Pin) (m : PinMode) : (s.setMode p m).cflag = s.cflag := rfl
@[simp] theorem setMode_cdata (p : Pin) (m : PinMode) : (s.setMode p m).cdata = s.cdata := rfl
@[simp] theorem setMode_acc (p : Pin) (m : PinMode) : (s.setMode p m).acc = s.acc := rfl
@[simp] theorem setMode_rdata (p : Pin) (m : PinMode) : (s.setMode p m).rdata = s.rdata := rfl
@[simp] theorem setMode_rdataValid (p : Pin) (m : PinMode) : (s.setMode p m).rdataValid = s.rdataValid := rfl
@[simp] theorem setMode_modes (p : Pin) (m : PinMode) : (s.setMode p m).modes = s.modes.set (pinIndex p).val m (pinIndex p).isLt := rfl
@[simp] theorem setMode_outs (p : Pin) (m : PinMode) : (s.setMode p m).outs = s.outs := rfl
@[simp] theorem setMode_sr (p : Pin) (m : PinMode) : (s.setMode p m).sr = s.sr := rfl
@[simp] theorem setMode_q (p : Pin) (m : PinMode) : (s.setMode p m).q = s.q := rfl
@[simp] theorem setMode_mem (p : Pin) (m : PinMode) : (s.setMode p m).mem = s.mem := rfl
@[simp] theorem setMode_pendingWrite (p : Pin) (m : PinMode) : (s.setMode p m).pendingWrite = s.pendingWrite := rfl
@[simp] theorem setMode_faulted (p : Pin) (m : PinMode) : (s.setMode p m).faulted = s.faulted := rfl
@[simp] theorem setMode_fcode (p : Pin) (m : PinMode) : (s.setMode p m).fcode = s.fcode := rfl
@[simp] theorem setMode_finfo (p : Pin) (m : PinMode) : (s.setMode p m).finfo = s.finfo := rfl
@[simp] theorem setMode_initDone (p : Pin) (m : PinMode) : (s.setMode p m).initDone = s.initDone := rfl
@[simp] theorem setMode_trace (p : Pin) (m : PinMode) : (s.setMode p m).trace = s.trace := rfl
@[simp] theorem setMode_hostCmds (p : Pin) (m : PinMode) : (s.setMode p m).hostCmds = s.hostCmds := rfl
@[simp] theorem setMode_draws (p : Pin) (m : PinMode) : (s.setMode p m).draws = s.draws := rfl

@[simp] theorem setOut_cfg (p : Pin) (v : Level) : (s.setOut p v).cfg = s.cfg := rfl
@[simp] theorem setOut_pending (p : Pin) (v : Level) : (s.setOut p v).pending = s.pending := rfl
@[simp] theorem setOut_fsm (p : Pin) (v : Level) : (s.setOut p v).fsm = s.fsm := rfl
@[simp] theorem setOut_cop (p : Pin) (v : Level) : (s.setOut p v).cop = s.cop := rfl
@[simp] theorem setOut_caddr (p : Pin) (v : Level) : (s.setOut p v).caddr = s.caddr := rfl
@[simp] theorem setOut_cflag (p : Pin) (v : Level) : (s.setOut p v).cflag = s.cflag := rfl
@[simp] theorem setOut_cdata (p : Pin) (v : Level) : (s.setOut p v).cdata = s.cdata := rfl
@[simp] theorem setOut_acc (p : Pin) (v : Level) : (s.setOut p v).acc = s.acc := rfl
@[simp] theorem setOut_rdata (p : Pin) (v : Level) : (s.setOut p v).rdata = s.rdata := rfl
@[simp] theorem setOut_rdataValid (p : Pin) (v : Level) : (s.setOut p v).rdataValid = s.rdataValid := rfl
@[simp] theorem setOut_modes (p : Pin) (v : Level) : (s.setOut p v).modes = s.modes := rfl
@[simp] theorem setOut_outs (p : Pin) (v : Level) : (s.setOut p v).outs = s.outs.set (pinIndex p).val v (pinIndex p).isLt := rfl
@[simp] theorem setOut_sr (p : Pin) (v : Level) : (s.setOut p v).sr = s.sr := rfl
@[simp] theorem setOut_q (p : Pin) (v : Level) : (s.setOut p v).q = s.q := rfl
@[simp] theorem setOut_mem (p : Pin) (v : Level) : (s.setOut p v).mem = s.mem := rfl
@[simp] theorem setOut_pendingWrite (p : Pin) (v : Level) : (s.setOut p v).pendingWrite = s.pendingWrite := rfl
@[simp] theorem setOut_faulted (p : Pin) (v : Level) : (s.setOut p v).faulted = s.faulted := rfl
@[simp] theorem setOut_fcode (p : Pin) (v : Level) : (s.setOut p v).fcode = s.fcode := rfl
@[simp] theorem setOut_finfo (p : Pin) (v : Level) : (s.setOut p v).finfo = s.finfo := rfl
@[simp] theorem setOut_initDone (p : Pin) (v : Level) : (s.setOut p v).initDone = s.initDone := rfl
@[simp] theorem setOut_trace (p : Pin) (v : Level) : (s.setOut p v).trace = s.trace := rfl
@[simp] theorem setOut_hostCmds (p : Pin) (v : Level) : (s.setOut p v).hostCmds = s.hostCmds := rfl
@[simp] theorem setOut_draws (p : Pin) (v : Level) : (s.setOut p v).draws = s.draws := rfl

@[simp] theorem emit_cfg (e : Event) : (s.emit e).cfg = s.cfg := rfl
@[simp] theorem emit_pending (e : Event) : (s.emit e).pending = s.pending := rfl
@[simp] theorem emit_fsm (e : Event) : (s.emit e).fsm = s.fsm := rfl
@[simp] theorem emit_cop (e : Event) : (s.emit e).cop = s.cop := rfl
@[simp] theorem emit_caddr (e : Event) : (s.emit e).caddr = s.caddr := rfl
@[simp] theorem emit_cflag (e : Event) : (s.emit e).cflag = s.cflag := rfl
@[simp] theorem emit_cdata (e : Event) : (s.emit e).cdata = s.cdata := rfl
@[simp] theorem emit_acc (e : Event) : (s.emit e).acc = s.acc := rfl
@[simp] theorem emit_rdata (e : Event) : (s.emit e).rdata = s.rdata := rfl
@[simp] theorem emit_rdataValid (e : Event) : (s.emit e).rdataValid = s.rdataValid := rfl
@[simp] theorem emit_modes (e : Event) : (s.emit e).modes = s.modes := rfl
@[simp] theorem emit_outs (e : Event) : (s.emit e).outs = s.outs := rfl
@[simp] theorem emit_sr (e : Event) : (s.emit e).sr = s.sr := rfl
@[simp] theorem emit_q (e : Event) : (s.emit e).q = s.q := rfl
@[simp] theorem emit_mem (e : Event) : (s.emit e).mem = s.mem := rfl
@[simp] theorem emit_pendingWrite (e : Event) : (s.emit e).pendingWrite = s.pendingWrite := rfl
@[simp] theorem emit_faulted (e : Event) : (s.emit e).faulted = s.faulted := rfl
@[simp] theorem emit_fcode (e : Event) : (s.emit e).fcode = s.fcode := rfl
@[simp] theorem emit_finfo (e : Event) : (s.emit e).finfo = s.finfo := rfl
@[simp] theorem emit_initDone (e : Event) : (s.emit e).initDone = s.initDone := rfl
@[simp] theorem emit_trace (e : Event) : (s.emit e).trace = s.trace ++ [e] := rfl
@[simp] theorem emit_hostCmds (e : Event) : (s.emit e).hostCmds = s.hostCmds := rfl
@[simp] theorem emit_draws (e : Event) : (s.emit e).draws = s.draws := rfl

@[simp] theorem announce_cfg (w : CmdWord) : (s.announce w).cfg = s.cfg := rfl
@[simp] theorem announce_pending (w : CmdWord) : (s.announce w).pending = s.pending := rfl
@[simp] theorem announce_fsm (w : CmdWord) : (s.announce w).fsm = s.fsm := rfl
@[simp] theorem announce_cop (w : CmdWord) : (s.announce w).cop = s.cop := rfl
@[simp] theorem announce_caddr (w : CmdWord) : (s.announce w).caddr = s.caddr := rfl
@[simp] theorem announce_cflag (w : CmdWord) : (s.announce w).cflag = s.cflag := rfl
@[simp] theorem announce_cdata (w : CmdWord) : (s.announce w).cdata = s.cdata := rfl
@[simp] theorem announce_acc (w : CmdWord) : (s.announce w).acc = s.acc := rfl
@[simp] theorem announce_rdata (w : CmdWord) : (s.announce w).rdata = s.rdata := rfl
@[simp] theorem announce_rdataValid (w : CmdWord) : (s.announce w).rdataValid = false := rfl
@[simp] theorem announce_modes (w : CmdWord) : (s.announce w).modes = s.modes := rfl
@[simp] theorem announce_outs (w : CmdWord) : (s.announce w).outs = s.outs := rfl
@[simp] theorem announce_sr (w : CmdWord) : (s.announce w).sr = s.sr := rfl
@[simp] theorem announce_q (w : CmdWord) : (s.announce w).q = s.q := rfl
@[simp] theorem announce_mem (w : CmdWord) : (s.announce w).mem = s.mem := rfl
@[simp] theorem announce_pendingWrite (w : CmdWord) : (s.announce w).pendingWrite = s.pendingWrite := rfl
@[simp] theorem announce_faulted (w : CmdWord) : (s.announce w).faulted = s.faulted := rfl
@[simp] theorem announce_fcode (w : CmdWord) : (s.announce w).fcode = s.fcode := rfl
@[simp] theorem announce_finfo (w : CmdWord) : (s.announce w).finfo = s.finfo := rfl
@[simp] theorem announce_initDone (w : CmdWord) : (s.announce w).initDone = s.initDone := rfl
@[simp] theorem announce_trace (w : CmdWord) : (s.announce w).trace = s.trace ++ [.cmd w] := rfl
@[simp] theorem announce_hostCmds (w : CmdWord) : (s.announce w).hostCmds = s.hostCmds := rfl
@[simp] theorem announce_draws (w : CmdWord) : (s.announce w).draws = s.draws := rfl

@[simp] theorem loadCmd_cfg (w : CmdWord) : (s.loadCmd w).cfg = s.cfg := rfl
@[simp] theorem loadCmd_pending (w : CmdWord) : (s.loadCmd w).pending = s.pending := rfl
@[simp] theorem loadCmd_fsm (w : CmdWord) : (s.loadCmd w).fsm = s.fsm := rfl
@[simp] theorem loadCmd_cop (w : CmdWord) : (s.loadCmd w).cop = defined (fieldOp w) := rfl
@[simp] theorem loadCmd_caddr (w : CmdWord) : (s.loadCmd w).caddr = defined (fieldAddr w) := rfl
@[simp] theorem loadCmd_cflag (w : CmdWord) : (s.loadCmd w).cflag = levelOf (fieldF w) := rfl
@[simp] theorem loadCmd_cdata (w : CmdWord) : (s.loadCmd w).cdata = defined (fieldData w) := rfl
@[simp] theorem loadCmd_acc (w : CmdWord) : (s.loadCmd w).acc = s.acc := rfl
@[simp] theorem loadCmd_rdata (w : CmdWord) : (s.loadCmd w).rdata = s.rdata := rfl
@[simp] theorem loadCmd_rdataValid (w : CmdWord) : (s.loadCmd w).rdataValid = s.rdataValid := rfl
@[simp] theorem loadCmd_modes (w : CmdWord) : (s.loadCmd w).modes = s.modes := rfl
@[simp] theorem loadCmd_outs (w : CmdWord) : (s.loadCmd w).outs = s.outs := rfl
@[simp] theorem loadCmd_sr (w : CmdWord) : (s.loadCmd w).sr = s.sr := rfl
@[simp] theorem loadCmd_q (w : CmdWord) : (s.loadCmd w).q = s.q := rfl
@[simp] theorem loadCmd_mem (w : CmdWord) : (s.loadCmd w).mem = s.mem := rfl
@[simp] theorem loadCmd_pendingWrite (w : CmdWord) : (s.loadCmd w).pendingWrite = s.pendingWrite := rfl
@[simp] theorem loadCmd_faulted (w : CmdWord) : (s.loadCmd w).faulted = s.faulted := rfl
@[simp] theorem loadCmd_fcode (w : CmdWord) : (s.loadCmd w).fcode = s.fcode := rfl
@[simp] theorem loadCmd_finfo (w : CmdWord) : (s.loadCmd w).finfo = s.finfo := rfl
@[simp] theorem loadCmd_initDone (w : CmdWord) : (s.loadCmd w).initDone = s.initDone := rfl
@[simp] theorem loadCmd_trace (w : CmdWord) : (s.loadCmd w).trace = s.trace := rfl
@[simp] theorem loadCmd_hostCmds (w : CmdWord) : (s.loadCmd w).hostCmds = s.hostCmds := rfl
@[simp] theorem loadCmd_draws (w : CmdWord) : (s.loadCmd w).draws = s.draws := rfl

@[simp] theorem raise_cfg (r : Raise) : (s.raise r).cfg = s.cfg := by unfold State.raise; split <;> rfl
@[simp] theorem raise_pending (r : Raise) : (s.raise r).pending = s.pending := by unfold State.raise; split <;> rfl
@[simp] theorem raise_fsm (r : Raise) : (s.raise r).fsm = s.fsm := by unfold State.raise; split <;> rfl
@[simp] theorem raise_cop (r : Raise) : (s.raise r).cop = s.cop := by unfold State.raise; split <;> rfl
@[simp] theorem raise_caddr (r : Raise) : (s.raise r).caddr = s.caddr := by unfold State.raise; split <;> rfl
@[simp] theorem raise_cflag (r : Raise) : (s.raise r).cflag = s.cflag := by unfold State.raise; split <;> rfl
@[simp] theorem raise_cdata (r : Raise) : (s.raise r).cdata = s.cdata := by unfold State.raise; split <;> rfl
@[simp] theorem raise_acc (r : Raise) : (s.raise r).acc = s.acc := by unfold State.raise; split <;> rfl
@[simp] theorem raise_rdata (r : Raise) : (s.raise r).rdata = s.rdata := by unfold State.raise; split <;> rfl
@[simp] theorem raise_rdataValid (r : Raise) : (s.raise r).rdataValid = s.rdataValid := by unfold State.raise; split <;> rfl
@[simp] theorem raise_modes (r : Raise) : (s.raise r).modes = s.modes := by unfold State.raise; split <;> rfl
@[simp] theorem raise_outs (r : Raise) : (s.raise r).outs = s.outs := by unfold State.raise; split <;> rfl
@[simp] theorem raise_sr (r : Raise) : (s.raise r).sr = s.sr := by unfold State.raise; split <;> rfl
@[simp] theorem raise_q (r : Raise) : (s.raise r).q = s.q := by unfold State.raise; split <;> rfl
@[simp] theorem raise_mem (r : Raise) : (s.raise r).mem = s.mem := by unfold State.raise; split <;> rfl
@[simp] theorem raise_pendingWrite (r : Raise) : (s.raise r).pendingWrite = s.pendingWrite := by unfold State.raise; split <;> rfl
@[simp] theorem raise_initDone (r : Raise) : (s.raise r).initDone = s.initDone := by unfold State.raise; split <;> rfl
@[simp] theorem raise_trace (r : Raise) : (s.raise r).trace = s.trace := by unfold State.raise; split <;> rfl
@[simp] theorem raise_hostCmds (r : Raise) : (s.raise r).hostCmds = s.hostCmds := by unfold State.raise; split <;> rfl
@[simp] theorem raise_draws (r : Raise) : (s.raise r).draws = s.draws := by unfold State.raise; split <;> rfl

/-- After a fault is raised the state is faulted. -/
@[simp] theorem raise_faulted (r : Raise) : (s.raise r).faulted = true := by
  unfold State.raise; split
  · assumption
  · rfl

end Sys2Proof.Machine
end

