-- ==== Sys2Proof/Laws/Run.lean ====
section
/-! SUPPORT. Runs of micro-operations: a list of them performed in order is what that many steps do (10_state.md R22). -/

namespace Sys2Proof.Machine

/-- The micro-operations of a list performed in order. -/
def performAll (ops : List MicroOp) (s : State) : State := ops.foldl (fun t op => perform op t) s

@[simp] theorem performAll_nil (s : State) : performAll [] s = s := rfl

@[simp] theorem performAll_cons (op : MicroOp) (ops : List MicroOp) (s : State) :
    performAll (op :: ops) s = performAll ops (perform op s) := rfl

theorem performAll_append (ops ops' : List MicroOp) (s : State) :
    performAll (ops ++ ops') s = performAll ops' (performAll ops s) := by simp [performAll]

/-! ### No operation reads or writes `pending` -/

theorem raise_withPending (s : State) (r : Raise) (l : List MicroOp) :
    ({ s with pending := l } : State).raise r = { s.raise r with pending := l } := by
  unfold State.raise; split <;> rfl

theorem shiftEdge_withPending (s : State) (old : Level) (l : List MicroOp) :
    shiftEdge old { s with pending := l } = { shiftEdge old s with pending := l } := by
  have h : ({ s with pending := l } : State).lvl .sclk = s.lvl .sclk := rfl
  unfold shiftEdge
  simp only [h]
  split
  · rfl
  · split <;> rfl

theorem latchEdge_withPending (s : State) (old : Level) (l : List MicroOp) :
    latchEdge old { s with pending := l } = { latchEdge old s with pending := l } := by
  have h : ({ s with pending := l } : State).lvl .slatch = s.lvl .slatch := rfl
  unfold latchEdge
  simp only [h]
  split
  · rfl
  · split <;> rfl

theorem whileLow_withPending (s : State) (p : Pin) (l : List MicroOp) :
    whileLow p { s with pending := l } = { whileLow p s with pending := l } := by
  have h : ({ s with pending := l } : State).weLvl = s.weLvl := rfl
  unfold whileLow
  rw [h]
  split
  · exact raise_withPending _ _ _
  · rfl

theorem capture_withPending (s : State) (l : List MicroOp) :
    capture { s with pending := l } = { capture s with pending := l } := by
  have h : captureCheck { s with pending := l } = captureCheck s := rfl
  unfold capture
  rw [h]
  split
  · exact raise_withPending _ _ _
  · rfl

theorem sample_withPending (s : State) (i : Fin 8) (l : List MicroOp) :
    sample i { s with pending := l } = { sample i s with pending := l } := by
  have h : sampleCheck i { s with pending := l } = sampleCheck i s := rfl
  unfold sample
  rw [h]
  split
  · exact raise_withPending (s.emit (.sample (.d i) .undef)) _ _
  · rfl

theorem commit_withPending (s : State) (l : List MicroOp) :
    commit { s with pending := l } = { commit s with pending := l } := by
  have h : ({ s with pending := l } : State).weLvl = s.weLvl := rfl
  unfold commit
  simp only [h]
  split
  · split <;> rfl
  · rfl

theorem react_withPending (p : Pin) (old s : State) (l l' : List MicroOp) :
    react p { old with pending := l' } { s with pending := l } = { react p old s with pending := l } := by
  cases p with
  | sdata => rfl
  | sclk => exact shiftEdge_withPending s _ l
  | slatch =>
    have h : ({ old with pending := l' } : State).lvl .slatch = old.lvl .slatch := rfl
    simp only [react, h, latchEdge_withPending]
    split
    · rfl
    · exact whileLow_withPending _ _ _
  | d i => exact whileLow_withPending _ _ _
  | we =>
    have h : ({ old with pending := l' } : State).weLvl = old.weLvl := rfl
    have h' : ({ s with pending := l } : State).weLvl = s.weLvl := rfl
    simp only [react, weEdge, h, h']
    split
    · exact capture_withPending _ _
    · rfl

/-- No micro-operation reads `pending`, and none changes it. -/
theorem perform_withPending (op : MicroOp) (s : State) (l : List MicroOp) :
    perform op { s with pending := l } = { perform op s with pending := l } := by
  cases op with
  | mode p m => exact react_withPending p s ((s.setMode p m).emit (.mode p m)) l l
  | drive p v => exact react_withPending p s ((s.setOut p (levelOf v)).emit (.drive p v)) l l
  | sampleInto i => exact sample_withPending s i l
  | delayUs n => rfl
  | delayMs n => exact commit_withPending (s.emit (.delayMs n)) l
  | setFsm f => rfl
  | accClear => rfl
  | accToRdata => rfl
  | initDone => rfl

/-! ### A fault is never cleared -/

theorem raise_faulted_of (s : State) (r : Raise) : (s.raise r).faulted = true := raise_faulted s r

/-- Whatever is performed in a faulted state, it stays faulted (R35). -/
theorem perform_keeps_faulted (op : MicroOp) (s : State) (h : s.faulted = true) : (perform op s).faulted = true := by
  cases op with
  | mode p m =>
    cases p <;> simp only [perform, react]
    · exact h
    · simp only [shiftEdge]; split; exacts [h, by split <;> exact h]
    · have h' : (latchEdge (s.lvl .slatch) ((s.setMode .slatch m).emit (.mode .slatch m))).faulted = true := by
        simp only [latchEdge]; split; exacts [h, by split <;> exact h]
      split
      · exact h'
      · unfold whileLow; split; exacts [raise_faulted _ _, h']
    · unfold whileLow; split; exacts [raise_faulted _ _, h]
    · unfold weEdge; split
      · unfold capture; split; exacts [raise_faulted _ _, h]
      · exact h
  | drive p v =>
    cases p <;> simp only [perform, react]
    · exact h
    · simp only [shiftEdge]; split; exacts [h, by split <;> exact h]
    · have h' : (latchEdge (s.lvl .slatch) ((s.setOut .slatch (levelOf v)).emit (.drive .slatch v))).faulted = true := by
        simp only [latchEdge]; split; exacts [h, by split <;> exact h]
      split
      · exact h'
      · unfold whileLow; split; exacts [raise_faulted _ _, h']
    · unfold whileLow; split; exacts [raise_faulted _ _, h]
    · unfold weEdge; split
      · unfold capture; split; exacts [raise_faulted _ _, h]
      · exact h
  | sampleInto i => simp only [perform, sample]; split; exacts [raise_faulted _ _, h]
  | delayUs n => exact h
  | delayMs n => simp only [perform, commit]; split; exacts [by split <;> exact h, h]
  | setFsm f => exact h
  | accClear => exact h
  | accToRdata => exact h
  | initDone => exact h

theorem performAll_keeps_faulted (ops : List MicroOp) (s : State) (h : s.faulted = true) :
    (performAll ops s).faulted = true := by
  induction ops generalizing s with
  | nil => exact h
  | cons op ops ih => exact ih _ (perform_keeps_faulted op s h)

/-! ### Steps -/

/-- The core's step (R22). -/
theorem step_of_pending {s : State} {op : MicroOp} {rest : List MicroOp} (hf : s.faulted = false)
    (hp : s.pending = op :: rest) : step s = .next { perform op s with pending := rest } := by
  unfold step
  rw [hf, hp]
  simp only [Bool.false_eq_true, if_false, coreStep, perform_withPending]

theorem hostRun_next (M : Host.Core) {k : Nat} {s t : M.State} (h : M.step s = .next t) :
    M.run (k + 1) s = M.run k t := by rw [Host.Core.run, h]

theorem hostRun_fault (M : Host.Core) {k : Nat} {s : M.State} {r : M.Fault} (h : M.step s = .fault r) :
    M.run (k + 1) s = .fault r := by rw [Host.Core.run, h]

theorem hostRun_refused (M : Host.Core) {k : Nat} {s : M.State} {r : M.Refusal} (h : M.step s = .refused r) :
    M.run (k + 1) s = .refused r := by rw [Host.Core.run, h]

/-- A run of this machine is the host's run of it. -/
theorem runSteps_eq_run (k : Nat) (s : State) : runSteps k s = Host.Core.run core k s := by
  induction k generalizing s with
  | zero => rfl
  | succ k ih =>
    unfold runSteps
    split
    · rename_i h; exact (ih _).trans (hostRun_next core h).symm
    · rename_i h; exact (hostRun_fault core h).symm
    · rename_i h; exact (hostRun_refused core h).symm

/-- A run goes on from the state its first step gives. -/
theorem runSteps_succ {k : Nat} {s t : State} (h : step s = .next t) : runSteps (k + 1) s = runSteps k t := by
  rw [runSteps, h]

theorem runSteps_add {j k : Nat} {s t : State} (h : runSteps j s = .next t) :
    runSteps (j + k) s = runSteps k t := by
  induction j generalizing s with
  | zero => simp only [runSteps, Host.Outcome.next.injEq] at h; subst h; rw [Nat.zero_add]
  | succ j ih =>
    rw [runSteps] at h
    rw [Nat.succ_add]
    split at h
    · rename_i hs
      rw [runSteps_succ hs, ih h]
    · exact absurd h (by simp)
    · exact absurd h (by simp)

/-- As many steps as a list of pending micro-operations has perform them, when none of them faults. -/
theorem run_of_pending (ops rest : List MicroOp) (s : State) (hp : s.pending = ops ++ rest)
    (hf : (performAll ops s).faulted = false) :
    runSteps ops.length s = .next { performAll ops s with pending := rest } := by
  induction ops generalizing s with
  | nil => simp only [List.nil_append] at hp; subst hp; rfl
  | cons op ops ih =>
    have hs : s.faulted = false := by
      cases h : s.faulted with
      | false => rfl
      | true => rw [performAll_keeps_faulted _ _ h] at hf; exact absurd hf (by decide)
    have h1 : step s = .next { perform op s with pending := ops ++ rest } := step_of_pending hs hp
    rw [List.length_cons, runSteps_succ h1]
    have e : performAll ops { perform op s with pending := ops ++ rest }
        = { performAll ops (perform op s) with pending := ops ++ rest } := by
      generalize perform op s = t
      generalize ops ++ rest = l
      clear ih hf hs h1 hp
      induction ops generalizing t with
      | nil => rfl
      | cons o os ih => rw [performAll_cons, perform_withPending, ih]; rfl
    have := ih { perform op s with pending := ops ++ rest } rfl (by rw [e]; exact hf)
    rw [this, e]; rfl

end Sys2Proof.Machine
end

