-- ==== Sys2Proof/Laws/Perform.lean ====
section
/-! SUPPORT. What each micro-operation does, one lemma per case, and what the sequences do (20_memory.md R73 to R80,
40_address_serializer.md R130 to R134, 41_bus_control.md R150 to R156). -/

namespace Sys2Proof.Machine

/-! ### Pins -/

theorem pinIndex_inj {p p' : Pin} : (pinIndex p).val = (pinIndex p').val ↔ p = p' := by
  constructor
  · intro h
    cases p <;> cases p' <;> simp only [pinIndex, Fin.isValue, Fin.val_zero, Fin.val_one, Pin.d.injEq] at h ⊢ <;>
      first | exact absurd h (by decide) | exact Fin.ext (by omega) | skip
    all_goals exact absurd h (by first | (rename_i i; revert i; decide))
  · rintro rfl; rfl

theorem mode_setMode (s : State) (p p' : Pin) (m : PinMode) :
    (s.setMode p m).mode p' = if p' = p then m else s.mode p' := by
  simp only [State.mode, setMode_modes, Vector.getElem_set, pinIndex_inj, eq_comm]

theorem out_setOut (s : State) (p p' : Pin) (v : Level) :
    (s.setOut p v).out p' = if p' = p then v else s.out p' := by
  simp only [State.out, setOut_outs, Vector.getElem_set, pinIndex_inj, eq_comm]

@[simp] theorem mode_setOut (s : State) (p p' : Pin) (v : Level) : (s.setOut p v).mode p' = s.mode p' := rfl
@[simp] theorem out_setMode (s : State) (p p' : Pin) (m : PinMode) : (s.setMode p m).out p' = s.out p' := rfl
@[simp] theorem mode_emit (s : State) (e : Event) (p : Pin) : (s.emit e).mode p = s.mode p := rfl
@[simp] theorem out_emit (s : State) (e : Event) (p : Pin) : (s.emit e).out p = s.out p := rfl
@[simp] theorem lvl_emit (s : State) (e : Event) (p : Pin) : (s.emit e).lvl p = s.lvl p := rfl
@[simp] theorem weLvl_emit (s : State) (e : Event) : (s.emit e).weLvl = s.weLvl := rfl

theorem lvl_of_output {s : State} {p : Pin} (h : s.mode p = .output) : s.lvl p = s.out p := by
  simp only [State.lvl, h]

theorem lvl_setMode_other (s : State) {p p' : Pin} (m : PinMode) (h : p' ≠ p) :
    (s.setMode p m).lvl p' = s.lvl p' := by
  simp only [State.lvl, mode_setMode, if_neg h, out_setMode]

theorem lvl_setOut_other (s : State) {p p' : Pin} (v : Level) (h : p' ≠ p) :
    (s.setOut p v).lvl p' = s.lvl p' := by
  simp only [State.lvl, out_setOut, if_neg h, mode_setOut]

theorem lvl_setOut_same (s : State) {p : Pin} (v : Level) (h : s.mode p = .output) :
    (s.setOut p v).lvl p = v := by
  simp only [State.lvl, mode_setOut, h, out_setOut, if_true]

theorem weLvl_setMode_other (s : State) {p : Pin} (m : PinMode) (h : Pin.we ≠ p) :
    (s.setMode p m).weLvl = s.weLvl := by simp only [State.weLvl, lvl_setMode_other s m h]

theorem weLvl_setOut_other (s : State) {p : Pin} (v : Level) (h : Pin.we ≠ p) :
    (s.setOut p v).weLvl = s.weLvl := by simp only [State.weLvl, lvl_setOut_other s v h]

theorem weLvl_of_high {s : State} (h : s.mode .we = .output) (h' : s.out .we = .high) : s.weLvl = true := by
  simp [State.weLvl, lvl_of_output h, h']

/-! ### Fields a state update leaves alone -/

theorem mode_congr {s t : State} (h : t.modes = s.modes) (p : Pin) : t.mode p = s.mode p := by
  simp only [State.mode, h]

theorem out_congr {s t : State} (h : t.outs = s.outs) (p : Pin) : t.out p = s.out p := by
  simp only [State.out, h]

theorem lvl_congr {s t : State} (hm : t.modes = s.modes) (ho : t.outs = s.outs) (p : Pin) : t.lvl p = s.lvl p := by
  simp only [State.lvl, mode_congr hm, out_congr ho]

theorem weLvl_congr {s t : State} (hm : t.modes = s.modes) (ho : t.outs = s.outs) : t.weLvl = s.weLvl := by
  simp only [State.weLvl, lvl_congr hm ho]

theorem sampleCheck_congr {s t : State} (hm : t.modes = s.modes) (ho : t.outs = s.outs) (hq : t.q = s.q)
    (hp : t.pendingWrite = s.pendingWrite) (hc : t.cfg = s.cfg) (i : Fin 8) : sampleCheck i t = sampleCheck i s := by
  simp only [sampleCheck, mode_congr hm, weLvl_congr hm ho, hq, hp, hc]

theorem captureCheck_congr {s t : State} (hm : t.modes = s.modes) (ho : t.outs = s.outs) (hq : t.q = s.q)
    (hp : t.pendingWrite = s.pendingWrite) (hc : t.cfg = s.cfg) : captureCheck t = captureCheck s := by
  simp only [captureCheck, State.dataOut, mode_congr hm, out_congr ho, hq, hp, hc]

/-! ### One micro-operation -/

/-- A mode change of a data pin while WE is high (R73, R79). -/
theorem perform_mode_data (s : State) (i : Fin 8) (m : PinMode) (hw : s.weLvl = true) :
    perform (.mode (.d i) m) s = (s.setMode (.d i) m).emit (.mode (.d i) m) := by
  simp [perform, react, whileLow, weLvl_setMode_other s m (show Pin.we ≠ .d i by simp), hw]

/-- A drive of a data pin while WE is high (R73, R79). -/
theorem perform_drive_data (s : State) (i : Fin 8) (v : Bool) (hw : s.weLvl = true) :
    perform (.drive (.d i) v) s = (s.setOut (.d i) (levelOf v)).emit (.drive (.d i) v) := by
  simp [perform, react, whileLow, weLvl_setOut_other s (levelOf v) (show Pin.we ≠ .d i by simp), hw]

/-- A rising edge of SCLK shifts SDATA in (R74). -/
theorem perform_sclk_rise (s : State) (hm : s.mode .sclk = .output) (ho : s.out .sclk = .low) :
    perform (.drive .sclk true) s
      = { (s.setOut .sclk .high).emit (.drive .sclk true) with sr := shiftIn s.sr (s.lvl .sdata) } := by
  have h1 : s.lvl .sclk = .low := by rw [lvl_of_output hm, ho]
  have h2 : ((s.setOut .sclk (levelOf true)).emit (.drive .sclk true)).lvl .sclk = .high :=
    lvl_setOut_same s _ hm
  have h3 : ((s.setOut .sclk (levelOf true)).emit (.drive .sclk true)).lvl .sdata = s.lvl .sdata :=
    lvl_setOut_other s _ (by decide)
  simp only [perform, react, shiftEdge, h1, h2, h3]
  rfl

/-- A falling edge of SCLK does nothing to the chain (R74). -/
theorem perform_sclk_fall (s : State) (hm : s.mode .sclk = .output) (ho : s.out .sclk = .high) :
    perform (.drive .sclk false) s = (s.setOut .sclk .low).emit (.drive .sclk false) := by
  have h1 : s.lvl .sclk = .high := by rw [lvl_of_output hm, ho]
  have h2 : ((s.setOut .sclk (levelOf false)).emit (.drive .sclk false)).lvl .sclk = .low :=
    lvl_setOut_same s _ hm
  simp only [perform, react, shiftEdge, h1, h2]
  rfl

/-- Driving SLATCH low from a defined level does nothing to the latch (R75). -/
theorem perform_slatch_low (s : State) (hm : s.mode .slatch = .output) (ho : s.out .slatch ≠ .undef) :
    perform (.drive .slatch false) s = (s.setOut .slatch .low).emit (.drive .slatch false) := by
  have h2 : ((s.setOut .slatch (levelOf false)).emit (.drive .slatch false)).lvl .slatch = .low :=
    lvl_setOut_same s _ hm
  have h3 : latchEdge (s.lvl .slatch) ((s.setOut .slatch (levelOf false)).emit (.drive .slatch false))
      = (s.setOut .slatch .low).emit (.drive .slatch false) := by
    rw [lvl_of_output hm]
    cases h : s.out .slatch with
    | undef => exact absurd h ho
    | low => simp only [latchEdge, h2, if_true]; rfl
    | high => simp only [latchEdge, h2]; rfl
  simp only [perform, react, h3]
  exact if_pos rfl

/-- A rising edge of SLATCH while WE is high takes the chain into the latch (R75). -/
theorem perform_slatch_rise (s : State) (hm : s.mode .slatch = .output) (ho : s.out .slatch = .low)
    (hw : s.weLvl = true) :
    perform (.drive .slatch true) s
      = { (s.setOut .slatch .high).emit (.drive .slatch true) with q := s.sr } := by
  have h1 : s.lvl .slatch = .low := by rw [lvl_of_output hm, ho]
  have h2 : ((s.setOut .slatch (levelOf true)).emit (.drive .slatch true)).lvl .slatch = .high :=
    lvl_setOut_same s _ hm
  have h3 : latchEdge .low ((s.setOut .slatch (levelOf true)).emit (.drive .slatch true))
      = { (s.setOut .slatch .high).emit (.drive .slatch true) with q := s.sr } := by
    simp only [latchEdge, h2]; rfl
  have h4 : ({ (s.setOut .slatch .high).emit (.drive .slatch true) with q := s.sr } : State).weLvl = true :=
    (weLvl_setOut_other s _ (by decide)).trans hw
  simp only [perform, react, h1, h3, whileLow, h4]
  simp

/-- A sample that passes the checks of R77. -/
theorem sample_of_ok (s : State) (i : Fin 8) (a : Addr) (h : sampleCheck i s = .ok a) :
    sample i s = { s.emit (.sample (.d i) (levelOf (sampleAnswer i a s))) with
      acc := shiftIn s.acc (levelOf (sampleAnswer i a s)), draws := drawsAfter s } := by
  simp only [sample, h]

/-- The falling edge of WE captures what the checks of R78 answer. -/
theorem perform_we_fall (s : State) (hm : s.mode .we = .output) (ho : s.out .we = .high) :
    perform (.drive .we false) s = capture ((s.setOut .we .low).emit (.drive .we false)) := by
  have h1 : s.weLvl = true := weLvl_of_high hm ho
  have h2 : ((s.setOut .we (levelOf false)).emit (.drive .we false)).weLvl = false := by
    simp [State.weLvl, lvl_setOut_same s _ hm, levelOf]
  simp only [perform, react, weEdge, h1, h2]
  simp [levelOf]

/-- The rising edge of WE changes only the pin (R79). -/
theorem perform_we_rise (s : State) (hm : s.mode .we = .output) :
    perform (.drive .we true) s = (s.setOut .we .high).emit (.drive .we true) := by
  have h2 : ((s.setOut .we (levelOf true)).emit (.drive .we true)).weLvl = true := by
    simp [State.weLvl, lvl_setOut_same s _ hm, levelOf]
  simp only [perform, react, weEdge, h2]
  simp [levelOf]

/-! ### The serializer -/

theorem eventsOf_append (ops ops' : List MicroOp) : eventsOf (ops ++ ops') = eventsOf ops ++ eventsOf ops' := by
  induction ops with
  | nil => rfl
  | cons op ops ih => cases op <;> simp [eventsOf, ih]

/-- One bit of a shift-out (R130). -/
theorem performAll_shiftOutBit (s : State) (b : Bool) (hd : s.mode .sdata = .output) (hc : s.mode .sclk = .output)
    (ho : s.out .sclk = .low) :
    performAll (shiftOutBit b) s = { s with
      sr := shiftIn s.sr (levelOf b)
      outs := (s.outs.set 0 (levelOf b)).set 1 .low
      trace := s.trace ++ eventsOf (shiftOutBit b) } := by
  have e1 : perform (.drive .sdata b) s = (s.setOut .sdata (levelOf b)).emit (.drive .sdata b) := rfl
  simp only [shiftOutBit, performAll_cons, performAll_nil, e1]
  generalize ht : (s.setOut .sdata (levelOf b)).emit (.drive .sdata b) = t
  have hct : t.mode .sclk = .output := by subst ht; exact hc
  have hot : t.out .sclk = .low := by subst ht; rw [out_emit, out_setOut, if_neg (by decide)]; exact ho
  have hdt : t.lvl .sdata = levelOf b := by subst ht; rw [lvl_emit, lvl_setOut_same s _ hd]
  rw [perform_sclk_rise t hct hot, perform_sclk_fall]
  · rw [hdt]
    subst ht
    simp only [State.emit, State.setOut, pinIndex, eventsOf, List.append_assoc, Vector.set_set]
    rfl
  · exact (mode_congr (s := t) (by rfl) _).trans hct
  · refine (out_congr (s := t.setOut .sclk .high) (by rfl) _).trans ?_
    rw [out_setOut, if_pos rfl]

/-- Bits shifted out one after another (R130, R136). -/
theorem performAll_shiftOutBits (bs : List Bool) (b : Bool) (s : State) (hd : s.mode .sdata = .output)
    (hc : s.mode .sclk = .output) (ho : s.out .sclk = .low) :
    performAll ((bs ++ [b]).flatMap shiftOutBit) s = { s with
      sr := ((bs ++ [b]).map levelOf).foldl shiftIn s.sr
      outs := (s.outs.set 0 (levelOf b)).set 1 .low
      trace := s.trace ++ eventsOf ((bs ++ [b]).flatMap shiftOutBit) } := by
  induction bs generalizing s with
  | nil => simp [performAll_shiftOutBit s b hd hc ho]
  | cons c bs ih =>
    rw [List.cons_append, List.flatMap_cons, performAll_append, performAll_shiftOutBit s c hd hc ho, ih]
    · simp only [eventsOf_append, List.append_assoc, List.map_cons, List.foldl_cons]
      congr 1
      rw [Vector.set_comm (i := 1) (j := 0) _ _ (by decide)]
      simp
    · exact hd
    · exact hc
    · simp [State.out, pinIndex]

/-- The bits of an address word in transmission order (R60, R103). -/
def wordBits (w : AddrWord) : List Bool :=
  [w.getLsbD 15, w.getLsbD 14, w.getLsbD 13, w.getLsbD 12, w.getLsbD 11, w.getLsbD 10, w.getLsbD 9, w.getLsbD 8,
    w.getLsbD 7, w.getLsbD 6, w.getLsbD 5, w.getLsbD 4, w.getLsbD 3, w.getLsbD 2, w.getLsbD 1, w.getLsbD 0]

theorem shiftOutWord_eq (a : Addr) (rw : Bool) :
    shiftOutByte (addrHi a rw) ++ shiftOutByte (addrLo a) = (wordBits (addrWord a rw)).flatMap shiftOutBit := by
  have h : ∀ k, (addrWord a rw).getLsbD k
      = if k < 8 then (addrLo a).getLsbD k else (addrHi a rw).getLsbD (k - 8) := fun k => by
    unfold addrWord; rw [BitVec.getLsbD_append]
  simp only [wordBits, h, Nat.reduceLT, if_true, if_false, Nat.reduceSub]
  rfl

/-- `LatchPulse` while WE is high: the chain is latched (R131). -/
theorem performAll_latchPulse (t : State) (hl : t.mode .slatch = .output) (hs : t.out .slatch ≠ .undef)
    (hw : t.weLvl = true) :
    performAll latchPulse t = { t with
      q := t.sr
      outs := t.outs.set 2 .low
      trace := t.trace ++ eventsOf latchPulse } := by
  have e1 := perform_slatch_low t hl hs
  have e2 := perform_slatch_rise ((t.setOut .slatch .low).emit (.drive .slatch false)) hl
    (by rw [out_emit, out_setOut, if_pos rfl])
    (by rw [weLvl_emit, weLvl_setOut_other t _ (by decide)]; exact hw)
  generalize h1 : (t.setOut .slatch .low).emit (.drive .slatch false) = t1 at e1 e2
  generalize h2 : ({ (t1.setOut .slatch .high).emit (.drive .slatch true) with q := t1.sr } : State) = t2 at e2
  have hm2 : t2.mode .slatch = .output := by
    rw [mode_congr (t := t2) (s := t) (by subst h2 h1; rfl)]; exact hl
  have ho2 : t2.out .slatch ≠ .undef := by
    rw [out_congr (t := t2) (s := t1.setOut .slatch .high) (by subst h2; rfl), out_setOut, if_pos rfl]
    decide
  have e3 := perform_slatch_low t2 hm2 ho2
  simp only [latchPulse, performAll_cons, performAll_nil, e1, e2, e3]
  subst h2 h1
  simp only [State.emit, State.setOut, Vector.set_set, eventsOf, List.append_assoc]
  rfl

/-- `SetAddressSeq` while WE is high: chain and latch hold the word, whatever they held (R132, R134). -/
theorem performAll_setAddressSeq (s : State) (a : Addr) (rw : Bool) (hd : s.mode .sdata = .output)
    (hc : s.mode .sclk = .output) (hl : s.mode .slatch = .output) (ho : s.out .sclk = .low)
    (hs : s.out .slatch ≠ .undef) (hw : s.weLvl = true) :
    performAll (setAddressSeq a rw) s = { s with
      sr := defined (addrWord a rw)
      q := defined (addrWord a rw)
      outs := ((s.outs.set 0 (levelOf (a.getLsbD 0))).set 1 .low).set 2 .low
      trace := s.trace ++ eventsOf (setAddressSeq a rw) } := by
  have hsr : ∀ v : LVec 16, ((wordBits (addrWord a rw)).map levelOf).foldl shiftIn v = defined (addrWord a rw) := by
    intro v
    apply foldl_shiftIn_eq_defined _ _ _ (by rfl)
    intro k hk
    have hk' : k < 16 := hk
    interval_cases k <;> rfl
  have h0 : (addrWord a rw).getLsbD 0 = a.getLsbD 0 := by
    unfold addrWord; rw [BitVec.getLsbD_append]; simp [addrLo]
  have hsplit : wordBits (addrWord a rw) = (wordBits (addrWord a rw)).dropLast ++ [a.getLsbD 0] := by
    rw [← h0]; rfl
  rw [setAddressSeq, shiftOutWord_eq, performAll_append, hsplit,
    performAll_shiftOutBits _ _ s hd hc ho, ← hsplit, hsr, eventsOf_append]
  generalize hev : eventsOf ((wordBits (addrWord a rw)).flatMap shiftOutBit) = ev
  generalize ht : ({ s with sr := defined (addrWord a rw), outs := (s.outs.set 0 (levelOf (a.getLsbD 0))).set 1 .low, trace := s.trace ++ ev } : State) = t
  have hmodes : t.modes = s.modes := by subst ht; rfl
  have hst : t.out .slatch ≠ .undef := by
    subst ht; simpa [State.out, pinIndex] using hs
  have hwt : t.weLvl = true := by
    subst ht
    rw [← hw]
    simp [State.weLvl, State.lvl, State.mode, State.out, pinIndex]
  rw [performAll_latchPulse t ((mode_congr hmodes _).trans hl) hst hwt]
  subst ht
  simp only [List.append_assoc]

end Sys2Proof.Machine
end

