-- ==== Sys2Proof/Laws/Sequences.lean ====
section
/-! SUPPORT. What the bus sequences do: the mode switch (41_bus_control.md R150), the drive (R155), the samples (R156)
and the write pulse (R153). -/

namespace Sys2Proof.Machine

/-! ### The mode switch -/

/-- The pin modes with the data pins of `l` in mode `m`. -/
def withDataModes (l : List (Fin 8)) (m : PinMode) (v : Vector PinMode 12) : Vector PinMode 12 :=
  l.foldl (fun v i => v.set (pinIndex (.d i)).val m (pinIndex (.d i)).isLt) v

/-- Data pins switched one after another while WE is high (R150). -/
theorem performAll_dataModes (l : List (Fin 8)) (m : PinMode) (s : State) (hw : s.weLvl = true) :
    performAll (l.map fun i => .mode (.d i) m) s = { s with
      modes := withDataModes l m s.modes
      trace := s.trace ++ eventsOf (l.map fun i => .mode (.d i) m) } := by
  induction l generalizing s with
  | nil => simp [withDataModes, eventsOf]
  | cons i l ih =>
    rw [List.map_cons, performAll_cons, perform_mode_data s i m hw, ih _ (by
      rw [weLvl_emit, weLvl_setMode_other s m (by simp)]; exact hw)]
    simp [withDataModes, eventsOf, State.emit, State.setMode]

/-- `BusModeSeq(m)` while WE is high (R150). -/
theorem performAll_busModeSeq (m : PinMode) (s : State) (hw : s.weLvl = true) :
    performAll (busModeSeq m) s = { s with
      modes := withDataModes upTo7 m s.modes
      trace := s.trace ++ eventsOf (busModeSeq m) } := performAll_dataModes upTo7 m s hw

theorem getElem_withDataModes (l : List (Fin 8)) (m : PinMode) (v : Vector PinMode 12) (k : Nat) (hk : k < 12) :
    (withDataModes l m v)[k] = if ∃ i ∈ l, 3 + i.val = k then m else v[k] := by
  induction l generalizing v with
  | nil => simp [withDataModes]
  | cons i l ih =>
    have : withDataModes (i :: l) m v = withDataModes l m (v.set (pinIndex (.d i)).val m (pinIndex (.d i)).isLt) := rfl
    rw [this, ih, Vector.getElem_set]
    simp only [pinIndex, List.mem_cons, exists_eq_or_imp]
    by_cases h1 : 3 + i.val = k <;> by_cases h2 : ∃ a ∈ l, 3 + a.val = k <;> simp [h1, h2]

/-- The pin modes with all data pins in mode `m`. -/
theorem getElem_allDataModes (m : PinMode) (v : Vector PinMode 12) (p : Pin) :
    (withDataModes upTo7 m v)[(pinIndex p).val] = (match p with | .d _ => m | p => v[(pinIndex p).val]) := by
  rw [getElem_withDataModes]
  cases p with
  | d i =>
    rw [if_pos ⟨i, by revert i; decide, rfl⟩]
  | sdata => rw [if_neg (by decide)]
  | sclk => rw [if_neg (by decide)]
  | slatch => rw [if_neg (by decide)]
  | we => rw [if_neg (by decide)]

/-! ### The drive of the bus -/

/-- The output registers with the data pins of `l` driven with the bits of `d`. -/
def withDataOuts (l : List (Fin 8)) (d : Byte) (v : LVec 12) : LVec 12 :=
  l.foldl (fun v i => v.set (pinIndex (.d i)).val (levelOf (d.getLsbD i.val)) (pinIndex (.d i)).isLt) v

theorem performAll_dataOuts (l : List (Fin 8)) (d : Byte) (s : State) (hw : s.weLvl = true) :
    performAll (l.map fun i => .drive (.d i) (d.getLsbD i.val)) s = { s with
      outs := withDataOuts l d s.outs
      trace := s.trace ++ eventsOf (l.map fun i => .drive (.d i) (d.getLsbD i.val)) } := by
  induction l generalizing s with
  | nil => simp [withDataOuts, eventsOf]
  | cons i l ih =>
    rw [List.map_cons, performAll_cons, perform_drive_data s i _ hw, ih _ (by
      rw [weLvl_emit, weLvl_setOut_other s _ (by simp)]; exact hw)]
    simp [withDataOuts, eventsOf, State.emit, State.setOut]

/-- `DriveBusSeq(d)` while WE is high (R155). -/
theorem performAll_driveBusSeq (d : Byte) (s : State) (hw : s.weLvl = true) :
    performAll (driveBusSeq d) s = { s with
      outs := withDataOuts upTo7 d s.outs
      trace := s.trace ++ eventsOf (driveBusSeq d) } := performAll_dataOuts upTo7 d s hw

theorem getElem_withDataOuts_other (l : List (Fin 8)) (d : Byte) (v : LVec 12) (k : Nat) (hk : k < 12)
    (h : ∀ i ∈ l, 3 + i.val ≠ k) : (withDataOuts l d v)[k] = v[k] := by
  induction l generalizing v with
  | nil => rfl
  | cons i l ih =>
    have : withDataOuts (i :: l) d v
        = withDataOuts l d (v.set (pinIndex (.d i)).val (levelOf (d.getLsbD i.val)) (pinIndex (.d i)).isLt) := rfl
    rw [this, ih _ fun j hj => h j (by simp [hj]), Vector.getElem_set]
    exact if_neg (h i (by simp))

theorem getElem_withDataOuts_data (l : List (Fin 8)) (d : Byte) (v : LVec 12) (i : Fin 8) (hi : i ∈ l) :
    (withDataOuts l d v)[(pinIndex (.d i)).val] = levelOf (d.getLsbD i.val) := by
  induction l generalizing v with
  | nil => cases hi
  | cons j l ih =>
    have : withDataOuts (j :: l) d v
        = withDataOuts l d (v.set (pinIndex (.d j)).val (levelOf (d.getLsbD j.val)) (pinIndex (.d j)).isLt) := rfl
    rw [this]
    by_cases h : i ∈ l
    · exact ih _ h
    · rcases List.mem_cons.1 hi with rfl | h'
      · rw [getElem_withDataOuts_other]
        · simp
        · intro k hk he
          have : k = i := by
            apply Fin.ext
            simp only [pinIndex] at he
            omega
          exact h (this ▸ hk)
      · exact absurd h' h

/-- The output registers with the whole byte driven. -/
theorem getElem_allDataOuts (d : Byte) (v : LVec 12) (p : Pin) :
    (withDataOuts upTo7 d v)[(pinIndex p).val]
      = (match p with | .d i => levelOf (d.getLsbD i.val) | p => v[(pinIndex p).val]) := by
  cases p with
  | d i => exact getElem_withDataOuts_data _ _ _ i (by revert i; decide)
  | sdata => exact getElem_withDataOuts_other _ _ _ _ _ (by decide)
  | sclk => exact getElem_withDataOuts_other _ _ _ _ _ (by decide)
  | slatch => exact getElem_withDataOuts_other _ _ _ _ _ (by decide)
  | we => exact getElem_withDataOuts_other _ _ _ _ _ (by decide)

/-! ### The samples -/

/-- Samples under the reference responder assemble the cell's bits (R77, R156). -/
theorem performAll_samples_reference (l : List (Fin 8)) (s : State) (a : Addr)
    (hr : s.cfg.params.responder = .reference) (hok : ∀ i, sampleCheck i s = .ok a) :
    performAll (l.map .sampleInto) s = { s with
      acc := (l.map fun i => levelOf ((memRead s.mem a.toNat).getLsbD i.val)).foldl shiftIn s.acc
      trace := s.trace ++ l.map fun i => .sample (.d i) (levelOf ((memRead s.mem a.toNat).getLsbD i.val)) } := by
  induction l generalizing s with
  | nil => simp
  | cons i l ih =>
    have e : perform (.sampleInto i) s = { s with
        acc := shiftIn s.acc (levelOf ((memRead s.mem a.toNat).getLsbD i.val))
        trace := s.trace ++ [.sample (.d i) (levelOf ((memRead s.mem a.toNat).getLsbD i.val))] } := by
      show sample i s = _
      rw [sample_of_ok s i a (hok i)]
      simp only [sampleAnswer, drawsAfter, hr, State.emit]
    rw [List.map_cons, performAll_cons, e, ih]
    · simp
    · exact hr
    · intro j
      exact (sampleCheck_congr (s := s) rfl rfl rfl rfl rfl j).trans (hok j)

/-- Samples under the unconstrained responder assemble free draws (R81, R156). -/
theorem performAll_samples_unconstrained (l : List (Fin 8)) (s : State) (a : Addr)
    (hr : s.cfg.params.responder = .unconstrained) (hok : ∀ i, sampleCheck i s = .ok a) :
    performAll (l.map .sampleInto) s = { s with
      acc := ((List.range l.length).map fun k => levelOf (Config.freeDraw (s.draws + k))).foldl shiftIn s.acc
      draws := s.draws + l.length
      trace := s.trace ++ l.mapIdx fun k i => .sample (.d i) (levelOf (Config.freeDraw (s.draws + k))) } := by
  induction l generalizing s with
  | nil => simp
  | cons i l ih =>
    have e : perform (.sampleInto i) s = { s with
        acc := shiftIn s.acc (levelOf (Config.freeDraw s.draws))
        draws := s.draws + 1
        trace := s.trace ++ [.sample (.d i) (levelOf (Config.freeDraw s.draws))] } := by
      show sample i s = _
      rw [sample_of_ok s i a (hok i)]
      simp only [sampleAnswer, drawsAfter, hr, State.emit]
    rw [List.map_cons, performAll_cons, e, ih]
    · simp [List.range_succ_eq_map, List.mapIdx_cons, Function.comp_def, Nat.add_assoc, Nat.add_comm 1]
    · exact hr
    · intro j
      exact (sampleCheck_congr (s := s) rfl rfl rfl rfl rfl j).trans (hok j)

/-! ### The write pulse -/

theorem commit_of_pending (s : State) (a : Addr) (d : Byte) (hp : s.pendingWrite = some (a, d))
    (hw : s.weLvl = true) : commit s = { s with mem := memWrite s.mem a.toNat d, pendingWrite := none } := by
  simp only [commit, hp, hw, if_true]

theorem set_we_high (s : State) (ho : s.out .we = .high) (l : Level) :
    (s.outs.set (pinIndex .we).val l (pinIndex .we).isLt).set (pinIndex .we).val .high (pinIndex .we).isLt
      = s.outs := by
  apply Vector.ext
  intro i hi
  rw [Vector.set_set, Vector.getElem_set]
  split
  · subst_vars; exact ho.symm
  · rfl

/-- `WePulseSeq` when the capture passes its checks: the byte is committed, and nothing else changes (R153, R154). -/
theorem performAll_wePulseSeq (s : State) (a : Addr) (d : Byte) (hm : s.mode .we = .output) (ho : s.out .we = .high)
    (hok : captureCheck ((s.setOut .we .low).emit (.drive .we false)) = .ok (a, d)) (hp : s.pendingWrite = none) :
    performAll (wePulseSeq s.cfg) s = { s with
      mem := memWrite s.mem a.toNat d
      trace := s.trace ++ eventsOf (wePulseSeq s.cfg) } := by
  have e1 : perform (.drive .we false) s
      = { (s.setOut .we .low).emit (.drive .we false) with pendingWrite := some (a, d) } := by
    rw [perform_we_fall s hm ho]
    simp only [capture, hok]
  generalize ht : ({ (s.setOut .we .low).emit (.drive .we false) with pendingWrite := some (a, d) } : State) = t at e1
  have hmt : t.mode .we = .output := by subst ht; exact hm
  have hpt : t.pendingWrite = some (a, d) := by subst ht; rfl
  have e2 : perform (.delayUs s.cfg.params.tWpUs) t = t.emit (.delayUs s.cfg.params.tWpUs) := rfl
  have e3 := perform_we_rise (t.emit (.delayUs s.cfg.params.tWpUs)) hmt
  have e4 : perform (.delayMs s.cfg.params.tSettleMs)
        (((t.emit (.delayUs s.cfg.params.tWpUs)).setOut .we .high).emit (.drive .we true))
      = commit ((((t.emit (.delayUs s.cfg.params.tWpUs)).setOut .we .high).emit (.drive .we true)).emit
          (.delayMs s.cfg.params.tSettleMs)) := rfl
  have hw : ((((t.emit (.delayUs s.cfg.params.tWpUs)).setOut .we .high).emit (.drive .we true)).emit
      (.delayMs s.cfg.params.tSettleMs)).weLvl = true :=
    weLvl_of_high hmt (by rw [out_emit, out_emit, out_setOut, if_pos rfl])
  simp only [wePulseSeq, performAll_cons, performAll_nil]
  rw [e1, e2, e3, e4, commit_of_pending _ a d (by exact hpt) hw]
  subst ht
  simp only [State.emit, State.setOut, eventsOf, List.append_assoc, set_we_high s ho .low, ← hp]
  rfl

end Sys2Proof.Machine
end

