-- ==== Sys2Proof/Laws/Accept.lean ====
section
/-! SUPPORT. The acceptance of a command: what it leaves, the word's fields, the step that takes it, and the state
between commands (10_state.md R40, 30_encoding.md R107, R108). -/

namespace Sys2Proof.Machine

/-! ### The accepted state, field by field -/

section accepted
variable (s : State) (w : CmdWord) (seq : List MicroOp)

@[simp] theorem accepted_cfg : (s.accepted w seq).cfg = s.cfg := rfl
@[simp] theorem accepted_fsm : (s.accepted w seq).fsm = s.fsm := rfl
@[simp] theorem accepted_acc : (s.accepted w seq).acc = s.acc := rfl
@[simp] theorem accepted_rdata : (s.accepted w seq).rdata = s.rdata := rfl
@[simp] theorem accepted_modes : (s.accepted w seq).modes = s.modes := rfl
@[simp] theorem accepted_outs : (s.accepted w seq).outs = s.outs := rfl
@[simp] theorem accepted_sr : (s.accepted w seq).sr = s.sr := rfl
@[simp] theorem accepted_q : (s.accepted w seq).q = s.q := rfl
@[simp] theorem accepted_mem : (s.accepted w seq).mem = s.mem := rfl
@[simp] theorem accepted_pendingWrite : (s.accepted w seq).pendingWrite = s.pendingWrite := rfl
@[simp] theorem accepted_faulted : (s.accepted w seq).faulted = s.faulted := rfl
@[simp] theorem accepted_fcode : (s.accepted w seq).fcode = s.fcode := rfl
@[simp] theorem accepted_finfo : (s.accepted w seq).finfo = s.finfo := rfl
@[simp] theorem accepted_initDone : (s.accepted w seq).initDone = s.initDone := rfl
@[simp] theorem accepted_hostCmds : (s.accepted w seq).hostCmds = s.hostCmds := rfl
@[simp] theorem accepted_draws : (s.accepted w seq).draws = s.draws := rfl
@[simp] theorem accepted_pending : (s.accepted w seq).pending = seq := rfl
@[simp] theorem accepted_rdataValid : (s.accepted w seq).rdataValid = false := rfl
@[simp] theorem accepted_trace : (s.accepted w seq).trace = s.trace ++ [.cmd w] := rfl
@[simp] theorem accepted_cop : (s.accepted w seq).cop = defined (fieldOp w) := rfl
@[simp] theorem accepted_caddr : (s.accepted w seq).caddr = defined (fieldAddr w) := rfl
@[simp] theorem accepted_cflag : (s.accepted w seq).cflag = levelOf (fieldF w) := rfl
@[simp] theorem accepted_cdata : (s.accepted w seq).cdata = defined (fieldData w) := rfl
@[simp] theorem accepted_mode (p : Pin) : (s.accepted w seq).mode p = s.mode p := rfl
@[simp] theorem accepted_out (p : Pin) : (s.accepted w seq).out p = s.out p := rfl
@[simp] theorem accepted_weLvl : (s.accepted w seq).weLvl = s.weLvl := rfl

end accepted

/-! ### The fields of an encoded word -/

section packWord
variable (op : BitVec 4) (f : Bool) (data : Byte) (addr : Addr)

@[simp] theorem fieldOp_packWord : fieldOp (packWord op f data addr) = op := by
  apply BitVec.eq_of_getLsbD_eq
  intro i hi
  simp only [fieldOp, packWord, BitVec.getLsbD_extractLsb', BitVec.getLsbD_append]
  interval_cases i <;> simp

@[simp] theorem fieldRsv1_packWord : fieldRsv1 (packWord op f data addr) = 0 := by
  apply BitVec.eq_of_getLsbD_eq
  intro i hi
  simp only [fieldRsv1, packWord, BitVec.getLsbD_extractLsb', BitVec.getLsbD_append]
  interval_cases i <;> simp

@[simp] theorem fieldF_packWord : fieldF (packWord op f data addr) = f := by
  simp only [fieldF, packWord, BitVec.getLsbD_append]
  simp

@[simp] theorem fieldData_packWord : fieldData (packWord op f data addr) = data := by
  apply BitVec.eq_of_getLsbD_eq
  intro i hi
  simp only [fieldData, packWord, BitVec.getLsbD_extractLsb', BitVec.getLsbD_append]
  interval_cases i <;> simp

@[simp] theorem fieldRsv0_packWord : fieldRsv0 (packWord op f data addr) = false := by
  simp only [fieldRsv0, packWord, BitVec.getLsbD_append]
  simp

@[simp] theorem fieldAddr_packWord : fieldAddr (packWord op f data addr) = addr := by
  apply BitVec.eq_of_getLsbD_eq
  intro i hi
  simp only [fieldAddr, packWord, BitVec.getLsbD_extractLsb', BitVec.getLsbD_append]
  interval_cases i <;> simp

end packWord

/-! ### The address word -/

theorem dirMask_addrWord (addr : Addr) (rw : Bool) : dirMask (addrWord addr rw) = !rw := by
  unfold dirMask addrWord
  rw [BitVec.getLsbD_append]
  simp only [Nat.reduceLT, if_false, Nat.reduceSub, addrHi, BitVec.getLsbD_or, BitVec.getLsbD_setWidth]
  cases rw <;> simp [Config.writeEnMask]

theorem addrLines_addrWord (addr : Addr) (rw : Bool) : addrLines (addrWord addr rw) = addr := by
  apply BitVec.eq_of_getLsbD_eq
  intro i hi
  unfold addrLines addrWord
  rw [BitVec.getLsbD_extractLsb', BitVec.getLsbD_append]
  simp only [hi, decide_true, Bool.true_and, Nat.zero_add, addrHi, addrLo, BitVec.getLsbD_or, BitVec.getLsbD_setWidth]
  interval_cases i <;> cases rw <;> simp [Config.writeEnMask]

/-- The output registers after `SetAddressSeq` (R133). -/
theorem getElem_addressOuts (v : LVec 12) (l : Level) (p : Pin) :
    (((v.set 0 l).set 1 .low).set 2 .low)[(pinIndex p).val]
      = (match p with | .sdata => l | .sclk => .low | .slatch => .low | p => v[(pinIndex p).val]) := by
  cases p with
  | d i => simp only [Vector.getElem_set, pinIndex]; rw [if_neg (by omega), if_neg (by omega), if_neg (by omega)]
  | sdata => simp [pinIndex]
  | sclk => simp [pinIndex]
  | slatch => simp [pinIndex]
  | we => simp [pinIndex]

/-! ### Readiness and the step that accepts -/

theorem cmdReady_iff (s : State) :
    s.cmdReady = true ↔ s.initDone = true ∧ s.pending = [] ∧ s.fsm = .idle ∧ s.faulted = false := by
  simp [State.cmdReady, and_assoc]

/-- The acceptance of a legal word by a ready core (R40). -/
theorem issue_ready {s : State} (h : s.cmdReady = true) (w : CmdWord) (seq : List MicroOp) :
    issue w seq s = .next (s.accepted w seq) := by
  simp only [issue, h, if_true]; rfl

theorem issueAccess_ready {s : State} {addr : Addr} (h : s.cmdReady = true)
    (ha : addr.toNat < s.cfg.params.eepromSize) (w : CmdWord) (seq : List MicroOp) :
    issueAccess w addr seq s = .next (s.accepted w seq) := by
  rw [issueAccess, if_neg (by omega), issue_ready h]

/-- The step that takes the host's next word (R40). -/
theorem step_of_hostCmds {s : State} {w : CmdWord} {ws : List CmdWord} (hf : s.faulted = false) (hp : s.pending = [])
    (hc : s.hostCmds = w :: ws) :
    step s = match decode w with
      | .cmd i => exec i { s with hostCmds := ws }
      | .illegal _ => issueIllegal w { s with hostCmds := ws } := by
  unfold step
  rw [if_neg (by simp [hf])]
  split
  · rename_i h; rw [hp] at h; cases h
  · split
    · rename_i h; rw [hc] at h; cases h
    · rename_i h; rw [hc] at h; cases h; rfl

/-- Each step is the core's, or the acceptance of a command or of an illegal word (R20). -/
theorem step_cases {s t : State} (h : step s = .next t) :
    s.faulted = false ∧
    ((∃ op rest, s.pending = op :: rest ∧ t = { perform op s with pending := rest }) ∨
      (∃ w ws i, s.pending = [] ∧ s.hostCmds = w :: ws ∧ decode w = .cmd i ∧
        exec i { s with hostCmds := ws } = .next t) ∨
      (∃ w ws why, s.pending = [] ∧ s.hostCmds = w :: ws ∧ decode w = .illegal why ∧
        issueIllegal w { s with hostCmds := ws } = .next t)) := by
  have hf : s.faulted = false := by
    by_contra hf
    rw [step, if_pos (by simpa using hf)] at h
    exact absurd h (by simp)
  refine ⟨hf, ?_⟩
  obtain ⟨l, hp⟩ : ∃ l, s.pending = l := ⟨_, rfl⟩
  cases l with
  | cons op rest =>
    rw [step_of_pending hf hp, Host.Outcome.next.injEq] at h
    exact .inl ⟨op, rest, hp, h.symm⟩
  | nil =>
    obtain ⟨l, hc⟩ : ∃ l, s.hostCmds = l := ⟨_, rfl⟩
    cases l with
    | nil =>
      unfold step at h
      simp only [hf, Bool.false_eq_true, if_false] at h
      split at h
      · rename_i h'; rw [hp] at h'; cases h'
      · split at h
        · exact absurd h (by simp)
        · rename_i h'; rw [hc] at h'; cases h'
    | cons w ws =>
      rw [step_of_hostCmds hf hp hc] at h
      split at h
      · exact .inr (.inl ⟨w, ws, _, hp, hc, by assumption, h⟩)
      · exact .inr (.inr ⟨w, ws, _, hp, hc, by assumption, h⟩)

/-- `Expand` of each command (30_encoding.md R110). -/
def expansion (c : Config) : Instr → List MicroOp
  | .setaddr addr rw => setAddressSeq addr rw
  | .busin => busModeSeq .input
  | .busout => busModeSeq .output
  | .wepulse => wePulseSeq c
  | .read addr => readSeq addr
  | .write addr data => writeSeq c addr data

/-- What accepting a command can answer: the accepted state, or the fault at acceptance (R40). -/
theorem exec_cases {s t : State} {i : Instr} (h : exec i s = .next t) :
    s.cmdReady = true ∧
    (t = s.accepted (encode i) (expansion s.cfg i) ∨
      (∃ addr, s.cfg.params.eepromSize ≤ addr.toNat ∧
        t = ((s.announce (encode i)).loadCmd (encode i)).raise ⟨.addressOutOfRange, none, some addr⟩)) := by
  have hr : s.cmdReady = true := by
    by_contra hr
    have hr : s.cmdReady = false := by simpa using hr
    have g : ∀ w seq, issue w seq s = .refused .notReady := fun w seq => by simp [issue, hr]
    have g' : ∀ w a seq, issueAccess w a seq s = .refused .notReady := fun w a seq => by
      simp only [issueAccess, hr, g]; split <;> rfl
    cases i with
    | setaddr addr rw => rw [show exec (.setaddr addr rw) s = _ from g _ _] at h; cases h
    | busin => rw [show exec .busin s = _ from g _ _] at h; cases h
    | busout => rw [show exec .busout s = _ from g _ _] at h; cases h
    | wepulse => rw [show exec .wepulse s = _ from g _ _] at h; cases h
    | read addr => rw [show exec (.read addr) s = _ from g' _ _ _] at h; cases h
    | write addr data => rw [show exec (.write addr data) s = _ from g' _ _ _] at h; cases h
  have k : issue (encode i) (expansion s.cfg i) s = .next t → t = s.accepted (encode i) (expansion s.cfg i) :=
    fun e => by rw [issue_ready hr, Host.Outcome.next.injEq] at e; exact e.symm
  have k' : ∀ addr, issueAccess (encode i) addr (expansion s.cfg i) s = .next t →
      t = s.accepted (encode i) (expansion s.cfg i) ∨ ∃ addr, s.cfg.params.eepromSize ≤ addr.toNat ∧
        t = ((s.announce (encode i)).loadCmd (encode i)).raise ⟨.addressOutOfRange, none, some addr⟩ := by
    intro addr e
    by_cases ha : s.cfg.params.eepromSize ≤ addr.toNat
    · rw [issueAccess, if_pos ha, if_pos hr, Host.Outcome.next.injEq] at e
      exact .inr ⟨addr, ha, e.symm⟩
    · rw [issueAccess, if_neg ha] at e; exact .inl (k e)
  refine ⟨hr, ?_⟩
  cases i with
  | setaddr addr rw => exact .inl (k h)
  | busin => exact .inl (k h)
  | busout => exact .inl (k h)
  | wepulse => exact .inl (k h)
  | read addr => exact k' addr h
  | write addr data => exact k' addr h

/-! ### The last command of a trace (R212) -/

@[simp] theorem lastCmd_append_cmd (l : List Event) (w : CmdWord) : lastCmd (l ++ [.cmd w]) = some w := by
  induction l with
  | nil => rfl
  | cons e l ih => simp only [List.cons_append, lastCmd, ih]

theorem lastCmd_append_other (l : List Event) (e : Event) (h : ∀ w, e ≠ .cmd w) : lastCmd (l ++ [e]) = lastCmd l := by
  induction l with
  | nil => cases e <;> first | rfl | exact absurd rfl (h _)
  | cons e l ih => simp only [List.cons_append, lastCmd, ih]

/-! ### The checks -/

theorem dataOut_eq_defined {s : State} {d : Byte} (h : ∀ i : Fin 8, s.out (.d i) = levelOf (d.getLsbD i.val)) :
    s.dataOut = defined d := by
  apply Vector.ext
  intro i hi
  simp only [State.dataOut, Vector.getElem_ofFn, h, getElem_defined]

/-- The capture reads the pin modes, the data registers, the latch, the pending write and the size, and nothing else
(R78). -/
theorem captureCheck_congr_data {s t : State} (hm : ∀ i, t.mode (.d i) = s.mode (.d i))
    (ho : ∀ i, t.out (.d i) = s.out (.d i)) (hq : t.q = s.q) (hp : t.pendingWrite = s.pendingWrite)
    (hc : t.cfg = s.cfg) : captureCheck t = captureCheck s := by
  simp only [captureCheck, State.dataOut, hm, ho, hq, hp, hc]

/-- A capture that passes every check of R78. -/
theorem captureCheck_ok {s : State} {w : AddrWord} {d : Byte} (hm : ∀ i, s.mode (.d i) = .output)
    (hq : s.q = defined w) (hd : ∀ i : Fin 8, s.out (.d i) = levelOf (d.getLsbD i.val)) (hw : dirMask w = true)
    (ha : (addrLines w).toNat < s.cfg.params.eepromSize) (hp : s.pendingWrite = none) :
    captureCheck s = .ok (addrLines w, d) := by
  simp only [captureCheck, hq, dataOut_eq_defined hd, bits?_defined, hw, hp]
  rw [if_neg (by simp [hm]), if_neg (by simp), if_neg (by omega), if_neg (by simp)]

/-- A sample that passes every check of R77. -/
theorem sampleCheck_ok {s : State} {w : AddrWord} (i : Fin 8) (hm : ∀ j, s.mode (.d j) = .input)
    (hl : s.weLvl = true) (hq : s.q = defined w) (hw : dirMask w = false)
    (ha : (addrLines w).toNat < s.cfg.params.eepromSize) (hp : s.pendingWrite = none) :
    sampleCheck i s = .ok (addrLines w) := by
  simp only [sampleCheck, hq, bits?_defined, hw, hp, hl]
  rw [if_neg (by simp [hm]), if_neg (by simp), if_neg (by simp), if_neg (by omega), if_neg (by simp)]

/-! ### The state between commands -/

theorem State.Idle.weLvl_high {s : State} (h : s.Idle) : s.weLvl = true := weLvl_of_high h.pins.we h.weHigh

theorem State.Idle.slatch_defined {s : State} (h : s.Idle) : s.out .slatch ≠ .undef := by rw [h.slatchLow]; decide

/-- A state that has finished a command that began between commands. -/
theorem idle_of_idle {s u : State} (h : s.Idle) (h1 : u.initDone = s.initDone) (h2 : u.pending = [])
    (h3 : u.fsm = .idle) (h4 : u.faulted = s.faulted) (hp : ∀ p, (∀ i, p ≠ .d i) → u.mode p = s.mode p)
    (h6 : u.out .sclk = .low) (h7 : u.out .slatch = .low) (h8 : u.out .we = .high) (h9 : u.pendingWrite = none) :
    u.Idle := by
  obtain ⟨a, b, c, d⟩ := (cmdReady_iff s).1 h.ready
  refine ⟨(cmdReady_iff u).2 ⟨h1.trans a, h2, h3, h4.trans d⟩, ⟨?_, ?_, ?_, ?_⟩, h6, h7, h8, h9⟩
  · rw [hp _ (by simp)]; exact h.pins.sdata
  · rw [hp _ (by simp)]; exact h.pins.sclk
  · rw [hp _ (by simp)]; exact h.pins.slatch
  · rw [hp _ (by simp)]; exact h.pins.we

end Sys2Proof.Machine
end

