-- ==== Sys2Proof/Laws/Frame.lean ====
section
/-! SUPPORT. What each operation can change at all: every other field is as before (20_memory.md R73 to R80,
10_state.md R22). -/

namespace Sys2Proof.Machine

theorem raise_eq (s : State) (r : Raise) :
    s.raise r = { s with
      faulted := (s.raise r).faulted, fcode := (s.raise r).fcode, finfo := (s.raise r).finfo } := by
  unfold State.raise; split <;> rfl

/-- The first fault (R35, R213). -/
theorem raise_first {s : State} (h : s.faulted = false) (r : Raise) :
    s.raise r = { s with
      faulted := true
      fcode := faultCodeOf r.cause
      finfo := some { word := lastCmd s.trace, event := s.trace.length - 1, pin := r.pin, addr := r.addr } } := by
  rw [State.raise, if_neg (by simp [h])]

/-- The chain's reaction touches only the chain (R74). -/
theorem shiftEdge_eq (old : Level) (s : State) : shiftEdge old s = { s with sr := (shiftEdge old s).sr } := by
  unfold shiftEdge
  dsimp only
  split
  · rfl
  · split <;> rfl

/-- The latch's reaction touches only the latch (R75). -/
theorem latchEdge_eq (old : Level) (s : State) : latchEdge old s = { s with q := (latchEdge old s).q } := by
  unfold latchEdge
  dsimp only
  split
  · rfl
  · split <;> rfl

theorem whileLow_eq (p : Pin) (s : State) :
    whileLow p s = { s with
      faulted := (whileLow p s).faulted, fcode := (whileLow p s).fcode, finfo := (whileLow p s).finfo } := by
  unfold whileLow
  split
  · exact raise_eq s _
  · rfl

/-- A capture that passes the checks takes the write; one that does not raises (R78). -/
theorem capture_eq (s : State) :
    capture s = { s with
      pendingWrite := (capture s).pendingWrite
      faulted := (capture s).faulted, fcode := (capture s).fcode, finfo := (capture s).finfo } := by
  unfold capture
  split
  · rw [raise_eq]
  · rfl

theorem weEdge_eq (old : Bool) (s : State) :
    weEdge old s = { s with
      pendingWrite := (weEdge old s).pendingWrite
      faulted := (weEdge old s).faulted, fcode := (weEdge old s).fcode, finfo := (weEdge old s).finfo } := by
  unfold weEdge
  split
  · exact capture_eq s
  · rfl

/-- A commit touches the array and the pending write (R80). -/
theorem commit_eq (s : State) :
    commit s = { s with mem := (commit s).mem, pendingWrite := (commit s).pendingWrite } := by
  unfold commit
  split
  · split <;> rfl
  · rfl

/-- A commit writes the captured byte, or does nothing (R80). -/
theorem commit_cases (s : State) :
    commit s = s ∨ ∃ a d, s.pendingWrite = some (a, d) ∧ s.weLvl = true ∧
      commit s = { s with mem := memWrite s.mem a.toNat d, pendingWrite := none } := by
  unfold commit
  split
  · rename_i a d h
    by_cases hw : s.weLvl = true
    · right; exact ⟨a, d, h, hw, if_pos hw⟩
    · left; exact if_neg hw
  · left; rfl

/-- A capture that passes its checks has an address in range (R78). -/
theorem captureCheck_range {s : State} {a : Addr} {d : Byte} (h : captureCheck s = .ok (a, d)) :
    a.toNat < s.cfg.params.eepromSize := by
  unfold captureCheck at h
  split at h
  · cases h
  · split at h
    · split at h
      · cases h
      · split at h
        · cases h
        · split at h
          · cases h
          · cases h; omega
    · cases h

/-- A capture takes a write in range, or raises (R78). -/
theorem capture_cases (s : State) :
    (∃ r, captureCheck s = .error r ∧ capture s = s.raise r) ∨
      ∃ a d, captureCheck s = .ok (a, d) ∧ a.toNat < s.cfg.params.eepromSize ∧
        capture s = { s with pendingWrite := some (a, d) } := by
  cases h : captureCheck s with
  | error r => exact .inl ⟨r, rfl, by simp only [capture, h]⟩
  | ok w => exact .inr ⟨w.1, w.2, rfl, captureCheck_range h, by simp only [capture, h]⟩

/-- The event a sample appends (R77, R213). -/
def sampleEvent (i : Fin 8) (s : State) : Event :=
  match sampleCheck i s with
  | .error _ => .sample (.d i) .undef
  | .ok a => .sample (.d i) (levelOf (sampleAnswer i a s))

/-- A sample touches the accumulator, the draws, the trace and the fault record (R77, R81). -/
theorem sample_eq (i : Fin 8) (s : State) :
    sample i s = { s with
      acc := (sample i s).acc, draws := (sample i s).draws, trace := s.trace ++ [sampleEvent i s]
      faulted := (sample i s).faulted, fcode := (sample i s).fcode, finfo := (sample i s).finfo } := by
  cases h : sampleCheck i s with
  | error r =>
    have e : sample i s = (s.emit (.sample (.d i) .undef)).raise r := by simp only [sample, h]
    rw [e, raise_eq]
    simp only [sampleEvent, h]
    rfl
  | ok a => simp only [sample, sampleEvent, h]; rfl

/-- The reactions to a pin event touch the two devices and the fault record (R73). -/
theorem react_eq (p : Pin) (old s : State) :
    react p old s = { s with
      sr := (react p old s).sr, q := (react p old s).q, pendingWrite := (react p old s).pendingWrite
      faulted := (react p old s).faulted, fcode := (react p old s).fcode, finfo := (react p old s).finfo } := by
  cases p with
  | sdata => rfl
  | sclk => simp only [react]; rw [shiftEdge_eq]
  | slatch =>
    simp only [react]
    rw [latchEdge_eq]
    split
    · rfl
    · rw [whileLow_eq]
  | d i => simp only [react]; rw [whileLow_eq]
  | we => simp only [react]; rw [weEdge_eq]

/-- The event a micro-operation appends, if any (R22, R27). -/
def eventOf (op : MicroOp) (s : State) : Option Event :=
  match op with
  | .mode p m => some (.mode p m)
  | .drive p v => some (.drive p v)
  | .sampleInto i => some (sampleEvent i s)
  | .delayUs n => some (.delayUs n)
  | .delayMs n => some (.delayMs n)
  | .setFsm _ => none
  | .accClear => none
  | .accToRdata => none
  | .initDone => none

/-- No micro-operation changes the configuration, `pending`, the command registers or the host's words, and each
appends at most its one event (R22, R24, R27, R38). -/
theorem perform_eq (op : MicroOp) (s : State) :
    perform op s = { s with
      fsm := (perform op s).fsm, acc := (perform op s).acc, rdata := (perform op s).rdata
      rdataValid := (perform op s).rdataValid, modes := (perform op s).modes, outs := (perform op s).outs
      sr := (perform op s).sr, q := (perform op s).q, mem := (perform op s).mem
      pendingWrite := (perform op s).pendingWrite, faulted := (perform op s).faulted
      fcode := (perform op s).fcode, finfo := (perform op s).finfo, initDone := (perform op s).initDone
      trace := s.trace ++ (eventOf op s).toList, draws := (perform op s).draws } := by
  cases op with
  | mode p m => simp only [perform]; rw [react_eq]; rfl
  | drive p v => simp only [perform]; rw [react_eq]; rfl
  | sampleInto i => simp only [perform]; rw [sample_eq]; rfl
  | delayUs n => rfl
  | delayMs n => simp only [perform]; rw [commit_eq]; rfl
  | setFsm f => simp only [perform, eventOf, Option.toList_none, List.append_nil]
  | accClear => simp only [perform, eventOf, Option.toList_none, List.append_nil]
  | accToRdata => simp only [perform, eventOf, Option.toList_none, List.append_nil]
  | initDone => simp only [perform, eventOf, Option.toList_none, List.append_nil]

/-- The array changes only by a commit (R80, R86). -/
theorem perform_mem (op : MicroOp) (s : State) :
    (perform op s).mem = s.mem ∨ ∃ n a d, op = .delayMs n ∧ s.pendingWrite = some (a, d) ∧ s.weLvl = true ∧
      (perform op s).mem = memWrite s.mem a.toNat d ∧ (perform op s).pendingWrite = none := by
  cases op with
  | mode p m => left; simp only [perform]; rw [react_eq]; rfl
  | drive p v => left; simp only [perform]; rw [react_eq]; rfl
  | sampleInto i => left; simp only [perform]; rw [sample_eq]
  | delayMs n =>
    rcases commit_cases (s.emit (.delayMs n)) with h | ⟨a, d, hp, hw, h⟩
    · left; simp only [perform]; rw [h]; rfl
    · right; exact ⟨n, a, d, rfl, hp, hw, by simp only [perform]; rw [h]; exact ⟨rfl, rfl⟩⟩
  | delayUs n => left; rfl
  | setFsm f => left; rfl
  | accClear => left; rfl
  | accToRdata => left; rfl
  | initDone => left; rfl

@[simp] theorem perform_cfg (op : MicroOp) (s : State) : (perform op s).cfg = s.cfg := by rw [perform_eq]
@[simp] theorem perform_pending (op : MicroOp) (s : State) : (perform op s).pending = s.pending := by rw [perform_eq]
@[simp] theorem perform_hostCmds (op : MicroOp) (s : State) : (perform op s).hostCmds = s.hostCmds := by rw [perform_eq]
theorem perform_trace (op : MicroOp) (s : State) : (perform op s).trace = s.trace ++ (eventOf op s).toList := by
  conv_lhs => rw [perform_eq]

end Sys2Proof.Machine
end

