-- ==== Sys2Proof/Laws/Init.lean ====
section
/-! SUPPORT. What INIT does (70_reset_and_hazards.md R241). -/

namespace Sys2Proof.Machine

theorem lvl_of_input {s : State} {p : Pin} (h : s.mode p = .input) : s.lvl p = .undef := by
  simp only [State.lvl, h]

/-- Driving an input pin's register changes no level (R28, R73). -/
theorem lvl_setOut_input (s : State) {p : Pin} (p' : Pin) (v : Level) (h : s.mode p = .input) :
    (s.setOut p v).lvl p' = s.lvl p' := by
  by_cases e : p' = p
  · subst e
    rw [lvl_of_input h, lvl_of_input (by exact h)]
  · exact lvl_setOut_other s v e

theorem perform_we_high_input (s : State) (h : s.mode .we = .input) :
    perform (.drive .we true) s = (s.setOut .we .high).emit (.drive .we true) := by
  have h1 : ((s.setOut .we (levelOf true)).emit (.drive .we true)).weLvl = true := by
    rw [weLvl_emit, State.weLvl, lvl_setOut_input s .we _ h, lvl_of_input h]; decide
  simp only [perform, react, weEdge, h1]
  simp [levelOf]

theorem perform_we_output_high (s : State) (h : s.out .we = .high) :
    perform (.mode .we .output) s = (s.setMode .we .output).emit (.mode .we .output) := by
  have h1 : ((s.setMode .we .output).emit (.mode .we .output)).weLvl = true :=
    weLvl_of_high (by rw [mode_emit, mode_setMode, if_pos rfl]) h
  simp only [perform, react, weEdge, h1]
  simp

theorem perform_sclk_low_input (s : State) (h : s.mode .sclk = .input) :
    perform (.drive .sclk false) s = (s.setOut .sclk .low).emit (.drive .sclk false) := by
  have h1 : ((s.setOut .sclk (levelOf false)).emit (.drive .sclk false)).lvl .sclk = s.lvl .sclk :=
    lvl_setOut_input s .sclk _ h
  simp only [perform, react, shiftEdge, h1, if_true]; rfl

theorem perform_slatch_low_input (s : State) (h : s.mode .slatch = .input) :
    perform (.drive .slatch false) s = (s.setOut .slatch .low).emit (.drive .slatch false) := by
  have h1 : ((s.setOut .slatch (levelOf false)).emit (.drive .slatch false)).lvl .slatch = s.lvl .slatch :=
    lvl_setOut_input s .slatch _ h
  simp only [perform, react, latchEdge, h1, if_true]; rfl

/-- Enabling SCLK at a low register makes the chain undefined (R74, D29). -/
theorem perform_sclk_output_low (s : State) (h : s.mode .sclk = .input) (ho : s.out .sclk = .low) :
    perform (.mode .sclk .output) s
      = { (s.setMode .sclk .output).emit (.mode .sclk .output) with sr := undefined 16 } := by
  have h1 : ((s.setMode .sclk .output).emit (.mode .sclk .output)).lvl .sclk = .low := by
    rw [lvl_emit, lvl_of_output (by rw [mode_setMode, if_pos rfl])]; exact ho
  simp only [perform, react, shiftEdge, h1, lvl_of_input h]
  rfl

/-- Enabling SLATCH at a low register while WE is high makes the latch undefined (R75, D29). -/
theorem perform_slatch_output_low (s : State) (h : s.mode .slatch = .input) (ho : s.out .slatch = .low)
    (hw : s.weLvl = true) :
    perform (.mode .slatch .output) s
      = { (s.setMode .slatch .output).emit (.mode .slatch .output) with q := undefined 16 } := by
  have h1 : ((s.setMode .slatch .output).emit (.mode .slatch .output)).lvl .slatch = .low := by
    rw [lvl_emit, lvl_of_output (by rw [mode_setMode, if_pos rfl])]; exact ho
  have h2 : ({ (s.setMode .slatch .output).emit (.mode .slatch .output) with q := undefined 16 } : State).weLvl
      = true := (weLvl_setMode_other s _ (by decide)).trans hw
  have h3 : latchEdge .undef ((s.setMode .slatch .output).emit (.mode .slatch .output))
      = { (s.setMode .slatch .output).emit (.mode .slatch .output) with q := undefined 16 } := by
    simp only [latchEdge, h1]; rfl
  simp only [perform, react, lvl_of_input h, h3, whileLow, h2]
  simp

/-- INIT from a state whose control pins are inputs (R241). -/
theorem performAll_initSeq (s : State) (hw : s.mode .we = .input)
    (hc : s.mode .sclk = .input) (hl : s.mode .slatch = .input) :
    performAll initSeq s = { s with
      initDone := true
      modes := (((s.modes.set 11 .output).set 0 .output).set 1 .output).set 2 .output
      outs := (((s.outs.set 11 .high).set 0 .low).set 1 .low).set 2 .low
      sr := undefined 16
      q := undefined 16
      trace := s.trace ++ eventsOf initSeq } := by
  simp only [initSeq, performAll_cons, performAll_nil]
  rw [perform_we_high_input s hw, perform_we_output_high _ (by rw [out_emit, out_setOut, if_pos rfl])]
  generalize h2 : (((s.setOut .we .high).emit (.drive .we true)).setMode .we .output).emit (.mode .we .output) = s2
  have e3 : perform (.drive .sdata false) s2 = (s2.setOut .sdata .low).emit (.drive .sdata false) := rfl
  have m2 : ∀ p, p ≠ .we → s2.mode p = s.mode p := fun p hp => by
    subst h2; rw [mode_emit, mode_setMode, if_neg hp, mode_emit, mode_setOut]
  have w2 : s2.weLvl = true := by
    subst h2
    exact weLvl_of_high (by rw [mode_emit, mode_setMode, if_pos rfl])
      (by rw [out_emit, out_setMode, out_emit, out_setOut, if_pos rfl])
  rw [e3, perform_sclk_low_input _ (by exact (m2 .sclk (by decide)).trans hc),
    perform_slatch_low_input _ (by exact (m2 .slatch (by decide)).trans hl)]
  generalize h5 : (((((s2.setOut .sdata .low).emit (.drive .sdata false)).setOut .sclk .low).emit
    (.drive .sclk false)).setOut .slatch .low).emit (.drive .slatch false) = s5
  have e6 : perform (.mode .sdata .output) s5 = (s5.setMode .sdata .output).emit (.mode .sdata .output) := rfl
  have m5 : ∀ p, s5.mode p = s2.mode p := fun p => by
    subst h5; simp only [mode_emit, mode_setOut]
  have w5 : s5.weLvl = true := by
    subst h5
    rw [weLvl_emit, weLvl_setOut_other _ _ (by decide), weLvl_emit, weLvl_setOut_other _ _ (by decide), weLvl_emit,
      weLvl_setOut_other _ _ (by decide), w2]
  have o5c : s5.out .sclk = .low := by
    subst h5; rw [out_emit, out_setOut, if_neg (by decide), out_emit, out_setOut, if_pos rfl]
  have o5l : s5.out .slatch = .low := by subst h5; rw [out_emit, out_setOut, if_pos rfl]
  have m5c : s5.mode .sclk = .input := by rw [m5, m2 _ (by decide), hc]
  have m5l : s5.mode .slatch = .input := by rw [m5, m2 _ (by decide), hl]
  have e7 := perform_sclk_output_low ((s5.setMode .sdata .output).emit (.mode .sdata .output))
    (by rw [mode_emit, mode_setMode, if_neg (by decide)]; exact m5c)
    ((out_congr (s := s5) (by rfl) _).trans o5c)
  rw [e6, e7]
  generalize h7 : ({ ((((s5.setMode .sdata .output).emit (.mode .sdata .output)).setMode .sclk .output).emit
    (.mode .sclk .output)) with sr := undefined 16 } : State) = s7
  have m7 : s7.mode .slatch = .input := by
    subst h7
    refine (mode_congr (s := ((s5.setMode .sdata .output).emit (.mode .sdata .output)).setMode .sclk .output)
      (by rfl) _).trans ?_
    rw [mode_setMode, if_neg (by decide), mode_emit, mode_setMode, if_neg (by decide)]; exact m5l
  have w7 : s7.weLvl = true := by
    subst h7
    refine (weLvl_congr (s := ((s5.setMode .sdata .output).emit (.mode .sdata .output)).setMode .sclk .output)
      (by rfl) (by rfl)).trans ?_
    rw [weLvl_setMode_other _ _ (by decide), weLvl_emit, weLvl_setMode_other _ _ (by decide), w5]
  have o7 : s7.out .slatch = .low := by
    subst h7
    exact (out_congr (s := s5) (by rfl) _).trans o5l
  rw [perform_slatch_output_low s7 m7 o7 w7]
  subst h7 h5 h2
  simp only [perform, State.emit, State.setOut, State.setMode, eventsOf, List.append_assoc]
  rfl

end Sys2Proof.Machine
end

