-- ==== Sys2Proof/Laws/Memory.lean ====
section
/-! SUPPORT. The EEPROM array: a read after a write, and the canonical form (20_memory.md R77, R80, R85). -/

namespace Sys2Proof.Machine

theorem memLookup_memWrite (m : Memory) (a b : Nat) (d : Byte) (hm : m.wf) :
    memLookup (memWrite m a d) b = if b = a then some d else memLookup m b := by
  induction m with
  | nil => simp only [memWrite, memLookup, eq_comm]
  | cons c m ih =>
    obtain ⟨k, v⟩ := c
    rw [Memory.wf, List.pairwise_cons] at hm
    simp only [memWrite]
    split
    · simp only [memLookup, eq_comm]
    · split
      · subst_vars
        by_cases hb : b = k <;> simp [memLookup, hb, eq_comm]
      · simp only [memLookup, ih hm.2]
        by_cases hk : k = b
        · subst hk; simp [show ¬ k = a by omega]
        · simp [hk]

/-- A read of the cell written gives the byte written. -/
theorem memRead_memWrite_same (m : Memory) (a : Nat) (d : Byte) (hm : m.wf) : memRead (memWrite m a d) a = d := by
  simp [memRead, memLookup_memWrite m a a d hm]

/-- A write leaves every other cell as it was. -/
theorem memRead_memWrite_other (m : Memory) (a b : Nat) (d : Byte) (hm : m.wf) (hb : b ≠ a) :
    memRead (memWrite m a d) b = memRead m b := by
  simp [memRead, memLookup_memWrite m a b d hm, hb]

theorem mem_memWrite (m : Memory) (a : Nat) (d : Byte) {c : Host.Cell} (hc : c ∈ memWrite m a d) :
    c = (a, d) ∨ c ∈ m := by
  induction m with
  | nil => simpa [memWrite] using hc
  | cons e m ih =>
    obtain ⟨k, v⟩ := e
    simp only [memWrite] at hc
    split at hc
    · simpa using hc
    · split at hc
      · rcases List.mem_cons.1 hc with h | h <;> simp [h]
      · rcases List.mem_cons.1 hc with h | h
        · simp [h]
        · rcases ih h with h | h <;> simp [h]

/-- A write keeps the canonical form. -/
theorem memWrite_wf (m : Memory) (a : Nat) (d : Byte) (hm : m.wf) : (memWrite m a d).wf := by
  induction m with
  | nil => simp [memWrite, Memory.wf]
  | cons e m ih =>
    obtain ⟨k, v⟩ := e
    have hm' := hm
    rw [Memory.wf, List.pairwise_cons] at hm
    simp only [memWrite]
    split
    · rename_i hlt
      rw [Memory.wf, List.pairwise_cons]
      refine ⟨fun c hc => ?_, hm'⟩
      rcases List.mem_cons.1 hc with h | h
      · subst h; exact hlt
      · exact Nat.lt_trans hlt (hm.1 c h)
    · split
      · subst_vars
        rw [Memory.wf, List.pairwise_cons]
        exact ⟨fun c hc => hm.1 c hc, hm.2⟩
      · rw [Memory.wf, List.pairwise_cons]
        refine ⟨fun c hc => ?_, ih hm.2⟩
        rcases mem_memWrite m a d hc with h | h
        · subst h; simp only; omega
        · exact hm.1 c h

/-- Writing the byte a cell was last given changes no data: repeating a write leaves the array as it is (R68). -/
theorem memWrite_repeat (m : Memory) (a : Nat) (d : Byte) : memWrite (memWrite m a d) a d = memWrite m a d := by
  induction m with
  | nil => simp [memWrite]
  | cons e m ih =>
    obtain ⟨k, v⟩ := e
    simp only [memWrite]
    split
    · simp [memWrite]
    · split
      · simp [memWrite]
      · rename_i h1 h2
        simp [memWrite, h1, h2, ih]

theorem reset_mem_wf : State.reset.mem.wf := List.Pairwise.nil

end Sys2Proof.Machine
end

