-- ==== Sys2Proof/Laws/PerInstr.lean ====
section
/-! SUPPORT. Statements for every command, one lemma per constructor of Instr: the encoding is legal field by field and
carries the command's own opcode and operands (30_encoding.md R107 to R112, R118). -/

namespace Sys2Proof.Laws.Legal

/-- The word of a command is legal, none of the five cases of R112 holds, and its OP is the command's row of R110. -/
def Statement (i : Instr) : Prop := LegalWord (encode i) = true ∧ fieldOp (encode i) = i.opcode.code

/-- `LegalWord` through the fields by name (R108, R112). -/
theorem legalWord_iff (w : CmdWord) :
    LegalWord w = ((decide (1 ≤ (fieldOp w).toNat) && decide ((fieldOp w).toNat ≤ 6)) &&
      (fieldRsv1 w == 0#3 && !fieldRsv0 w) && (fieldOp w == 1#4 || !fieldF w) &&
      (fieldOp w == 6#4 || fieldData w == 0#8) &&
      (fieldOp w == 1#4 || fieldOp w == 5#4 || fieldOp w == 6#4 || fieldAddr w == 0#15)) := rfl

theorem setaddr (addr : Addr) (rw : Bool) : Statement (.setaddr addr rw) := by
  simp [Statement, legalWord_iff, encode, Instr.opcode, Opcode.code]

theorem busin : Statement .busin := by unfold Statement; decide

theorem busout : Statement .busout := by unfold Statement; decide

theorem wepulse : Statement .wepulse := by unfold Statement; decide

theorem read (addr : Addr) : Statement (.read addr) := by
  simp [Statement, legalWord_iff, encode, Instr.opcode, Opcode.code]

theorem write (addr : Addr) (data : Byte) : Statement (.write addr data) := by
  simp [Statement, legalWord_iff, encode, Instr.opcode, Opcode.code]

end Sys2Proof.Laws.Legal
end

