-- ==== Sys2Proof/Laws/Transactions.lean ====
section
/-! SUPPORT. The first half of a READ or WRITE, the bus mode and then the address (42_cell_access.md R182, R183, R185),
the two forms of the address word, and the run of an accepted command. -/

namespace Sys2Proof.Machine

/-- As many steps as an accepted command has micro-operations perform them, when none of them faults (R22). -/
theorem run_of_accepted {s t : State} (w : CmdWord) (seq : List MicroOp) (e : performAll seq (s.accepted w seq) = t)
    (hf : t.faulted = false) : runSteps seq.length (s.accepted w seq) = .next { t with pending := [] } := by
  have := run_of_pending seq [] (s.accepted w seq) (by rw [accepted_pending, List.append_nil]) (by rw [e]; exact hf)
  rw [this, e]

/-- The word of a READ's address: M is 0 (R101, R102). -/
theorem addrWord_read (addr : Addr) : addrWord addr true = addr.setWidth 16 := by
  apply BitVec.eq_of_getLsbD_eq
  intro i hi
  by_cases h : i < 15
  · have := congrArg (fun w => w.getLsbD i) (addrLines_addrWord addr true)
    simp only [addrLines, BitVec.getLsbD_extractLsb', h, decide_true, Bool.true_and, Nat.zero_add] at this
    rw [this, BitVec.getLsbD_setWidth, decide_eq_true hi, Bool.true_and]
  · obtain rfl : i = 15 := by omega
    have := dirMask_addrWord addr true
    rw [dirMask] at this
    rw [this]; simp

/-- The word of a WRITE's address: M is 1 (R101, R102). -/
theorem addrWord_write (addr : Addr) : addrWord addr false = 0x8000#16 ||| addr.setWidth 16 := by
  apply BitVec.eq_of_getLsbD_eq
  intro i hi
  by_cases h : i < 15
  · have := congrArg (fun w => w.getLsbD i) (addrLines_addrWord addr false)
    simp only [addrLines, BitVec.getLsbD_extractLsb', h, decide_true, Bool.true_and, Nat.zero_add] at this
    rw [this, BitVec.getLsbD_or]
    interval_cases i <;> simp
  · obtain rfl : i = 15 := by omega
    have := dirMask_addrWord addr false
    rw [dirMask] at this
    rw [this]; simp

/-- A bus mode switch leaves the control pins' modes (R150). -/
theorem getElem_dataModes_other (s : State) (m : PinMode) (p : Pin) (hp : ∀ i, p ≠ .d i) :
    (withDataModes upTo7 m s.modes)[(pinIndex p).val] = s.mode p := by
  refine (getElem_allDataModes m s.modes p).trans ?_
  cases p with
  | d i => exact absurd rfl (hp i)
  | sdata => rfl
  | sclk => rfl
  | slatch => rfl
  | we => rfl

/-- The Addressing state of a transaction: the bus mode, then the address word latched (R180, R182, R183). -/
theorem performAll_addressing (s : State) (f : Fsm) (m : PinMode) (addr : Addr) (rw : Bool) (hp : s.ControlPinsOut)
    (hc : s.out .sclk = .low) (hs : s.out .slatch ≠ .undef) (hw : s.weLvl = true) :
    performAll ([.setFsm f] ++ busModeSeq m ++ setAddressSeq addr rw) s = { s with
      fsm := f
      modes := withDataModes upTo7 m s.modes
      sr := defined (addrWord addr rw)
      q := defined (addrWord addr rw)
      outs := ((s.outs.set 0 (levelOf (addr.getLsbD 0))).set 1 .low).set 2 .low
      trace := s.trace ++ eventsOf (busModeSeq m ++ setAddressSeq addr rw) } := by
  have hg := getElem_allDataModes m s.modes
  rw [performAll_append, performAll_append, performAll_cons, performAll_nil,
    show perform (.setFsm f) s = { s with fsm := f } from rfl, performAll_busModeSeq m _ (by exact hw),
    performAll_setAddressSeq _ addr rw (by exact (hg .sdata).trans hp.sdata) (by exact (hg .sclk).trans hp.sclk)
      (by exact (hg .slatch).trans hp.slatch) (by exact hc) (by exact hs)]
  · simp only [eventsOf_append, List.append_assoc]
  · have e : ({ s with fsm := f, modes := withDataModes upTo7 m s.modes, trace := s.trace ++ eventsOf (busModeSeq m) }
        : State).mode .we = .output := (hg .we).trans hp.we
    have hne : s.out .we ≠ .low := fun h => by simp [State.weLvl, lvl_of_output hp.we, h] at hw
    simp only [State.weLvl, lvl_of_output e]
    exact decide_eq_true hne

end Sys2Proof.Machine
end

