-- ==== Sys2Proof/Tests/Slice0.lean ====
section
/-! SUPPORT. Tests with expected results from spec/95_test_vectors.md and the rules, and, for every statement with
hypotheses, a named state and operands that meet them together. -/

namespace Sys2Proof.Tests

/- One test after another: each evaluation in the kernel would else wait in a thread of its own. -/
set_option Elab.async false

open Sys2Proof.Machine

/-! ### Well-formedness (00_scope.md R8, 30_encoding.md R112, R115) -/

/-- IllFormedConfigurationIsRefused: a configuration that meets every clause; the tests after it break each. -/
theorem test_params_wellFormed : Config.someParams.WellFormed := by decide

/-- R8, first clause: PIN_WE is data pin 7. -/
theorem test_params_pins_distinct : ¬ ({ Config.someParams with pinWe := 10 } : Params).WellFormed := by decide

theorem test_params_size_zero : ¬ ({ Config.someParams with eepromSize := 0 } : Params).WellFormed := by decide

theorem test_params_size_top : ({ Config.someParams with eepromSize := 32768 } : Params).WellFormed := by decide

theorem test_params_size_past_top : ¬ ({ Config.someParams with eepromSize := 32769 } : Params).WellFormed := by decide

theorem test_params_pulse_shortened : ¬ ({ Config.someParams with tWpMinNs := 1001 } : Params).WellFormed := by decide

theorem test_params_settle_shortened : ¬ ({ Config.someParams with tWcMs := 2 } : Params).WellFormed := by decide

theorem test_params_delays_positive :
    ¬ ({ Config.someParams with tWpUs := 0, tWpMinNs := 0 } : Params).WellFormed ∧
      ¬ ({ Config.someParams with tSettleMs := 0, tWcMs := 0 } : Params).WellFormed := by decide

/-- VE1's last lines: `SETADDR 0x8000, W` and `WRITE 0x005, 0x100` are assembly errors. -/
theorem test_assembly_out_of_range :
    (AsmCmd.setaddr 0x8000 false).WellFormed = false ∧ (AsmCmd.read 0x8000).WellFormed = false ∧
      (AsmCmd.write 0x8000 0).WellFormed = false ∧ (AsmCmd.write 0x005 0x100).WellFormed = false := by decide

theorem test_assembly_in_range :
    (AsmCmd.setaddr 0x7FFF true).WellFormed = true ∧ (AsmCmd.read 0x7FFF).WellFormed = true ∧
      (AsmCmd.write 0x7FFF 0xFF).WellFormed = true := by decide

/-- The words of VE2 are not legal, field by field (R112). -/
theorem test_illegal_words_by_field :
    LegalWord 0x00000000 = false ∧ LegalWord 0x70000000 = false ∧ LegalWord 0xF0000000 = false ∧
      LegalWord 0x10008000 = false ∧ LegalWord 0x12000000 = false ∧ LegalWord 0x21000000 = false ∧
      LegalWord 0x30000001 = false ∧ LegalWord 0x40000001 = false ∧ LegalWord 0x50010000 = false ∧
      LegalWord 0x52000000 = false ∧ LegalWord 0x51000005 = false ∧ LegalWord 0x60FF8001 = false ∧
      LegalWord 0x61A50005 = false := by decide

/-! ### Decoding and encoding (VE1, VE2) -/

theorem test_decode_setaddr : decode 0b00010001000000000001001000110100 = .cmd (.setaddr 0x1234 true) := by decide

theorem test_decode_setaddr_largest : decode 0x10007FFF = .cmd (.setaddr 0x7FFF false) := by decide

theorem test_decode_busin : decode 0b00100000000000000000000000000000 = .cmd .busin := by decide

theorem test_decode_busout : decode 0b00110000000000000000000000000000 = .cmd .busout := by decide

theorem test_decode_wepulse : decode 0b01000000000000000000000000000000 = .cmd .wepulse := by decide

theorem test_decode_read : decode 0b01010000000000000000011111111111 = .cmd (.read 0x7FF) := by decide

theorem test_decode_write : decode 0b01100000101001010000000000000101 = .cmd (.write 0x005 0xA5) := by decide

theorem test_decode_write_zero : decode 0x60000000 = .cmd (.write 0 0) := by decide

theorem test_encode :
    encode (.setaddr 0x800 true) = 0x11000800 ∧ encode .busin = 0x20000000 ∧ encode .busout = 0x30000000 ∧
      encode .wepulse = 0x40000000 ∧ encode (.read 0x800) = 0x50000800 ∧
      encode (.write 0x7FF 0x01) = 0x600107FF := by decide

/-- VE2, with the case of R112 each falls under. -/
theorem test_decode_illegal :
    decode 0x00000000 = .illegal .unassignedOpcode ∧ decode 0x70000000 = .illegal .unassignedOpcode ∧
      decode 0xF0000000 = .illegal .unassignedOpcode ∧ decode 0x10008000 = .illegal .reservedNonzero ∧
      decode 0x12000000 = .illegal .reservedNonzero ∧ decode 0x21000000 = .illegal .flagNonzero ∧
      decode 0x30000001 = .illegal .addrNonzero ∧ decode 0x40000001 = .illegal .addrNonzero ∧
      decode 0x50010000 = .illegal .dataNonzero ∧ decode 0x52000000 = .illegal .reservedNonzero ∧
      decode 0x51000005 = .illegal .flagNonzero ∧ decode 0x60FF8001 = .illegal .reservedNonzero ∧
      decode 0x61A50005 = .illegal .flagNonzero := by decide

theorem test_decodeTableWord :
    decodeTableWord 32 0x60A50005 = some (.write 0x005 0xA5) ∧ decodeTableWord 32 0x70000000 = none := by decide

/-- R115: `WRITE 0x005, 165 ; x`. -/
theorem test_assemble_write :
    assembleLine ['W', 'R', 'I', 'T', 'E', ' ', '0', 'x', '0', '0', '5', ',', ' ', '1', '6', '5', ' ', ';', ' ', 'x']
      = .cmd (.write 0x005 0xA5) := by decide

/-- R115: `SETADDR 0x8000, W` is an error, and a line with only a comment is no command. -/
theorem test_assemble_error :
    assembleLine ['S', 'E', 'T', 'A', 'D', 'D', 'R', ' ', '0', 'x', '8', '0', '0', '0', ',', ' ', 'W'] = .error ∧
      assembleLine [' ', ';', 'R'] = .empty := by decide

/-- VA2's words and M. -/
theorem test_address_words :
    addrWord 0x000 true = 0x0000 ∧ addrWord 0x000 false = 0x8000 ∧ addrWord 0x005 false = 0x8005 ∧
      addrWord 0x7FF true = 0x07FF ∧ addrWord 0x1234 true = 0x1234 ∧ addrWord 0x1234 false = 0x9234 ∧
      addrWord 0x7FFF true = 0x7FFF ∧ addrWord 0x7FFF false = 0xFFFF := by decide

/-- The split over the two chips (R32): U2 holds the high byte. -/
theorem test_chips : chipU2 (defined 0x9234#16) = defined 0x92#8 ∧ chipU1 (defined 0x9234#16) = defined 0x34#8 := by
  decide

/-! ### The states the tests start from -/

/-- A launch's configuration with the given responder. -/
def cfgWith (r : Responder) : Config :=
  ⟨{ Config.someParams with responder := r }, by cases r <;> decide⟩

/-- The state after INIT (95_test_vectors.md, Conventions; 70_reset_and_hazards.md R241). -/
def readyWith (r : Responder) : State := runOps initSeq (State.powerUp (cfgWith r))

/-- After INIT, with the reference responder. -/
def ready : State := readyWith .reference

/-- Between commands, as a `WRITE 0x010, 0x5A` leaves it: bus out and driving 0x5A, `q = 0x8010`. -/
def writing : State :=
  { ready with
    modes := Vector.replicate 12 .output
    outs := #v[.low, .low, .low, .low, .high, .low, .high, .high, .low, .high, .low, .high]
    q := defined 0x8010#16
    sr := defined 0x8010#16 }

/-- Inside the write pulse of `writing`: WE is low and the write is captured. -/
def pulsing : State :=
  { writing with
    outs := writing.outs.set 11 .low
    pendingWrite := some (0x010, 0x5A)
    pending := [.delayUs 1, .drive .we true, .delayMs 1] }

/-- The pulse with its delay done. -/
def pulseTimed : State := { pulsing with pending := [.drive .we true, .delayMs 1] }

/-- After the pulse, the settle wait still to come. -/
def settling : State := { pulsing with outs := writing.outs, pending := [.delayMs 1] }

/-- Between commands, as a READ of 0x005 leaves it. -/
def reading : State := { ready with q := defined 0x0005#16, sr := defined 0x0005#16 }

/-- A faulted launch. -/
def faulty : State := ready.raise ⟨.illegalCommand, none, none⟩

/-! ### Power-up and INIT (VI1) -/

theorem test_init :
    ready.trace = [.drive .we true, .mode .we .output, .drive .sdata false, .drive .sclk false, .drive .slatch false,
      .mode .sdata .output, .mode .sclk .output, .mode .slatch .output] ∧
      ready.sr = undefined 16 ∧ ready.q = undefined 16 ∧ ready.cmdReady = true := by decide +kernel

theorem test_reset_not_ready : State.reset.cmdReady = false ∧ State.reset.mem = [] ∧ State.reset.trace = [] :=
  ⟨rfl, rfl, rfl⟩

/-- The word stored for the next step is accepted by it (log 17). -/
theorem test_withFetchWord :
    ∃ t, step (State.reset.withFetchWord 32 0x20000000) = .next t ∧ t.pending = busModeSeq .input := ⟨_, rfl, rfl⟩

/-! ### SETADDR (40_address_serializer.md) -/

/-- VA3: `SETADDR 0x005, W` begins with its most significant bit, M = 1. -/
theorem test_setaddr_first_bits :
    (setAddressSeq 0x005 false).take 4
      = [.drive .sdata true, .drive .sclk true, .drive .sclk false, .drive .sdata false] ∧
      (setAddressSeq 0x005 false).drop 48 = [.drive .slatch false, .drive .slatch true, .drive .slatch false] := by
  decide

/-- VA3, event 50: the latch takes the chain. -/
theorem test_setaddr_latch :
    (perform (.drive .slatch true) { ready with sr := defined 0x8005#16 }).q = defined 0x8005#16 := by decide +kernel

/-! ### BUSIN and BUSOUT (VB1, VB2) -/

theorem test_busin_events :
    eventsOf (busModeSeq .input) = [.mode (.d 0) .input, .mode (.d 1) .input, .mode (.d 2) .input,
      .mode (.d 3) .input, .mode (.d 4) .input, .mode (.d 5) .input, .mode (.d 6) .input, .mode (.d 7) .input] := by
  decide

/-- A pin turned to output drives its register, a `⊥` with no fault. -/
theorem test_busout_first_event :
    (perform (.mode (.d 0) .output) ready).lvl (.d 0) = .undef ∧
      (perform (.mode (.d 0) .output) ready).faulted = false := by decide +kernel

/-! ### WEPULSE (VF1, VR1) -/

/-- VF1: the data pins are inputs after power-up. -/
theorem test_wepulse_bus_direction :
    (perform (.drive .we false) ready).fcode = 3 ∧ (perform (.drive .we false) ready).out .we = .low ∧
      (perform (.drive .we false) ready).finfo = some ⟨none, 8, some .we, none⟩ := by decide +kernel

/-- VR1, event 68: the address and the byte are captured. -/
theorem test_wepulse_capture : (perform (.drive .we false) writing).pendingWrite = some (0x010, 0x5A) := by
  decide +kernel

/-! ### READ (VR2, VF8) -/

/-- VF8: `READ 0x800` faults at its `Cmd` event, index 8. -/
theorem test_read_out_of_range :
    ∃ t, exec (.read 0x800) ready = .next t ∧ t.fcode = 2 ∧
      t.finfo = some ⟨some 0x50000800, 8, none, some 0x800⟩ ∧ t.trace.length = 9 := ⟨_, rfl, rfl, rfl, rfl⟩

/-- VR2: the last sample shifts the D0 bit of 0xA5 into `acc = 0x52`. -/
theorem test_read_last_sample :
    (perform (.sampleInto 0) { reading with mem := [(5, 0xA5)], acc := defined 0x52#8 }).acc = defined 0xA5#8 := by
  decide +kernel

/-! ### WRITE (VR1, VF9) -/

/-- VF9: `WRITE 0x800, 0x01` faults at its `Cmd` event. -/
theorem test_write_out_of_range :
    ∃ t, exec (.write 0x800 0x01) ready = .next t ∧ t.fcode = 2 ∧
      t.finfo = some ⟨some 0x60010800, 8, none, some 0x800⟩ ∧ t.pending = [] := ⟨_, rfl, rfl, rfl, rfl⟩

/-- VR1, event 71: the settle wait commits the byte. -/
theorem test_write_commit :
    (perform (.delayMs 1) settling).mem = [(0x010, 0x5A)] ∧ (perform (.delayMs 1) settling).pendingWrite = none := by
  decide +kernel

/-! ### Acceptance of an illegal word (VF10) -/

theorem test_illegal_command :
    ∃ t, step { ready with hostCmds := [0x70000000] } = .next t ∧ t.fcode = 1 ∧
      t.finfo = some ⟨some 0x70000000, 8, none, none⟩ ∧ t.trace.length = 9 := ⟨_, rfl, rfl, rfl, rfl⟩

/-! ### Witnesses: a state and operands that meet each statement's hypotheses -/

theorem ready_cmdReady : ready.cmdReady = true := by decide +kernel

theorem ready_controlPinsOut : ready.ControlPinsOut :=
  ⟨by decide +kernel, by decide +kernel, by decide +kernel, by decide +kernel⟩

theorem test_witness_idle : ready.Idle :=
  ⟨ready_cmdReady, ready_controlPinsOut, by decide +kernel, by decide +kernel, by decide +kernel, by decide +kernel⟩

theorem test_witness_idle_unconstrained : (readyWith .unconstrained).Idle :=
  ⟨by decide +kernel, ⟨by decide +kernel, by decide +kernel, by decide +kernel, by decide +kernel⟩, by decide +kernel,
    by decide +kernel, by decide +kernel, by decide +kernel⟩

/-- EncodeOfDecodeIsTheWord. -/
theorem test_witness_EncodeOfDecode : ∃ i, decode 0x60A50005 = .cmd i := ⟨_, test_decode_write⟩

/-- AtMostOneRowMatches. -/
theorem test_witness_AtMostOneRow :
    ⟨.write, 0x60000000, 0xFF008000⟩ ∈ opcodeMap ∧
      (⟨.write, 0x60000000, 0xFF008000⟩ : OpRow).matchesWord 0x60A50005 = true := by decide

/-- CellCommandsInRangeAreAccepted, ReadReturnsTheCell, WriteStoresTheByte: the last cell. -/
theorem test_witness_cell_in_range :
    ready.cmdReady = true ∧ (0x7FF : Addr).toNat < ready.cfg.params.eepromSize ∧
      ready.cfg.params.responder = .reference ∧ ready.mem.wf :=
  ⟨ready_cmdReady, by decide +kernel, by decide +kernel, List.Pairwise.nil⟩

/-- CellCommandsOutOfRangeFault: one past the last cell. -/
theorem test_witness_cell_out_of_range :
    ready.cmdReady = true ∧ ready.cfg.params.eepromSize ≤ (0x800 : Addr).toNat := ⟨ready_cmdReady, by decide +kernel⟩

/-- IllegalWordFaults. -/
theorem test_witness_IllegalWord :
    ({ ready with hostCmds := [0x70000000] } : State).cmdReady = true ∧
      decode 0x70000000 = .illegal .unassignedOpcode := ⟨by decide +kernel, by decide⟩

/-- NothingIsAcceptedUnlessReady: before INIT, and in a faulted state. -/
theorem test_witness_not_ready : State.reset.cmdReady = false ∧ faulty.cmdReady = false := ⟨rfl, by decide +kernel⟩

/-- AcceptanceFrame, StepKeepsTraceConfigurationAndInitDone: a command accepted; PinEventCounts: a faulting one and an
illegal word. -/
theorem test_witness_accepted :
    (∃ t, exec .busin ready = .next t) ∧ (∃ t, exec (.read 0x800) ready = .next t ∧ t.faulted = true) ∧
      ∃ t, issueIllegal 0 ready = .next t :=
  ⟨⟨_, rfl⟩, ⟨_, rfl, rfl⟩, ⟨_, rfl⟩⟩

/-- StepRunsTheDecodedCommand, and a step with `initDone` set (StepKeepsTraceConfigurationAndInitDone). -/
theorem test_witness_StepRuns :
    ({ ready with hostCmds := [0x20000000] } : State).faulted = false ∧
      ({ ready with hostCmds := [0x20000000] } : State).pending = [] ∧ decode 0x20000000 = .cmd .busin ∧
      ready.initDone = true ∧ ∃ t, step { ready with hostCmds := [0x20000000] } = .next t :=
  ⟨by decide +kernel, by decide +kernel, by decide, by decide +kernel, ⟨_, rfl⟩⟩

/-- CoreStepPerformsTheHead: the first step of INIT, and with nothing pending the acceptance of a word. -/
theorem test_witness_CoreStep :
    (State.reset.faulted = false ∧ State.reset.pending = .drive .we true :: initSeq.tail) ∧
      ({ ready with hostCmds := [0x20000000] } : State).pending = [] ∧
      ∃ t, step { ready with hostCmds := [0x20000000] } = .next t := ⟨⟨rfl, rfl⟩, rfl, _, rfl⟩

/-- R211's codes 3 and 4, by the vectors VF1 and a sample with M = 1. -/
theorem test_fault_codes :
    (ready.raise ⟨.busDirection, some .we, none⟩).fcode = 3 ∧
      (perform (.sampleInto 0) { reading with q := defined 0x8005#16 }).fcode = 4 := by decide +kernel

/-- FaultedStateHasNoStep, FirstFaultIsRecordedAndKept. -/
theorem test_witness_faulted : faulty.faulted = true ∧ ready.faulted = false := ⟨by decide +kernel, by decide +kernel⟩

/-- EndedIffNoStep, both ways: ready with nothing to do, and with a word to accept. -/
theorem test_witness_ended :
    ready.Ended = true ∧ ({ ready with hostCmds := [0x20000000] } : State).Ended = false :=
  ⟨by decide +kernel, by decide +kernel⟩

/-- A SETADDR accepted right after INIT: `sr` and `q` are undefined; with `lv` on SLATCH. -/
def addressing (lv : Level) : State :=
  { ready.setOut .slatch lv with pending := setAddressSeq 0x7FFF false }

/-- SetAddressSeqReplacesEveryStage, RisingEdgesCarryTheWordInOrder, DirectionMaskIsTheInverseOfRw: SLATCH low, high
and undefined. -/
theorem test_witness_SerializerReady (lv : Level) :
    (addressing lv).SerializerReady ∧ (addressing lv).pending = setAddressSeq 0x7FFF false ++ [] ∧
      (addressing lv).sr = undefined 16 :=
  ⟨⟨by cases lv <;> decide +kernel, by cases lv <;> decide +kernel, by cases lv <;> decide +kernel,
    by cases lv <;> decide +kernel, by cases lv <;> decide +kernel, by cases lv <;> decide +kernel,
    by cases lv <;> decide +kernel⟩, by cases lv <;> decide +kernel, by cases lv <;> decide +kernel⟩

/-- LatchChangesOnlyAtEventFifty: SLATCH defined. -/
theorem test_witness_slatch_defined :
    (addressing .low).out .slatch ≠ .undef ∧ (addressing .high).out .slatch ≠ .undef := by decide +kernel

/-- LatchChangesOnlyAtEventFifty and RisingEdgesCarryTheWordInOrder: the numbers at their ends. -/
theorem test_witness_event_numbers : (49 ≤ 51 ∧ 50 ≤ 51 ∧ 51 ≤ 51) ∧ (1 ≤ 1 ∧ 1 ≤ 16 ∧ 16 ≤ 16) := by decide

theorem writing_controlPinsOut : writing.ControlPinsOut :=
  ⟨by decide +kernel, by decide +kernel, by decide +kernel, by decide +kernel⟩

/-- WepulseCommitsTheDrivenByte. -/
theorem test_witness_Wepulse :
    writing.Idle ∧ writing.mem.wf ∧ (∀ i, writing.mode (.d i) = .output) ∧ writing.q = defined 0x8010#16 ∧
      (∀ i : Fin 8, writing.out (.d i) = levelOf ((0x5A : Byte).getLsbD i.val)) ∧ dirMask 0x8010 = true ∧
      (addrLines 0x8010).toNat < writing.cfg.params.eepromSize :=
  ⟨⟨by decide +kernel, writing_controlPinsOut, by decide +kernel, by decide +kernel, by decide +kernel,
    by decide +kernel⟩, List.Pairwise.nil, by decide +kernel, rfl, by decide +kernel, by decide, by decide +kernel⟩

/-- WepulseFaultsAtItsFirstEvent and CaptureChecksInOrder: each check of R78 stops some state between commands. -/
theorem test_witness_capture_errors :
    captureCheck ready = .error ⟨.busDirection, some .we, none⟩ ∧
      captureCheck { writing with q := undefined 16 } = .error ⟨.undefinedLevel, some .we, none⟩ ∧
      captureCheck (writing.setOut (.d 7) .undef) = .error ⟨.undefinedLevel, some .we, none⟩ ∧
      captureCheck { writing with q := defined 0x0010#16 } = .error ⟨.directionMask, some .we, none⟩ ∧
      captureCheck { writing with q := defined 0x8800#16 } = .error ⟨.addressOutOfRange, none, some 0x800⟩ ∧
      captureCheck { writing with pendingWrite := some (0, 0) } = .error ⟨.undefinedLevel, some .we, none⟩ ∧
      captureCheck { writing with q := defined 0x87FF#16 } = .ok (0x7FF, 0x5A) := by decide +kernel

/-- CaptureChecksInOrder, its first clause: a falling edge of WE. -/
theorem test_witness_falling_edge : writing.weLvl = true ∧ pulsing.weLvl = false := by decide +kernel

/-- ReadUnderUnconstrainedResponderReturnsTheDraws. -/
theorem test_witness_unconstrained :
    (readyWith .unconstrained).Idle ∧ (readyWith .unconstrained).cfg.params.responder = .unconstrained ∧
      (0 : Addr).toNat < (readyWith .unconstrained).cfg.params.eepromSize :=
  ⟨test_witness_idle_unconstrained, by decide +kernel, by decide +kernel⟩

/-- SampleChecksInOrder, FaultingSampleTracesUndefined: each check of R77 stops some state, and one state passes. -/
theorem test_witness_sample_errors :
    sampleCheck 3 writing = .error ⟨.busDirection, some (.d 3), none⟩ ∧
      sampleCheck 3 (reading.setOut .we .low) = .error ⟨.directionMask, some (.d 3), none⟩ ∧
      sampleCheck 3 ready = .error ⟨.undefinedLevel, some (.d 3), none⟩ ∧
      sampleCheck 3 { reading with q := defined 0x8005#16 } = .error ⟨.directionMask, some (.d 3), none⟩ ∧
      sampleCheck 3 { reading with q := defined 0x0800#16 } = .error ⟨.addressOutOfRange, none, some 0x800⟩ ∧
      sampleCheck 3 { reading with pendingWrite := some (0, 0) } = .error ⟨.undefinedLevel, some (.d 3), none⟩ ∧
      sampleCheck 3 { reading with q := defined 0x07FF#16 } = .ok 0x7FF := by decide +kernel

/-- PinLevels: WE driven high, driven low and not driven; a pin of each mode. -/
theorem test_witness_PinLevels :
    ready.lvl .we = .high ∧ pulsing.lvl .we = .low ∧ State.reset.lvl .we = .undef ∧
      ready.mode .sclk = .output ∧ ready.mode (.d 0) = .input :=
  ⟨by decide +kernel, by decide +kernel, rfl, by decide +kernel, by decide +kernel⟩

/-- ShiftChainReactions, OutputLatchReactions: each pair of levels. -/
theorem test_witness_edges :
    (ready.setOut .sclk .high).lvl .sclk = .high ∧ ready.lvl .sclk = .low ∧ (ready.setOut .sclk .undef).lvl .sclk = .undef ∧
      (ready.setOut .slatch .high).lvl .slatch = .high ∧ ready.lvl .slatch = .low ∧
      (ready.setOut .slatch .undef).lvl .slatch = .undef := by decide +kernel

/-- DataPinEventsWhileWeIsLowFault. -/
theorem test_witness_we_low : pulsing.faulted = false ∧ pulsing.weLvl = false := by decide +kernel

/-- LatchChangeWhileWeIsLowFaults: the chain differs from the latch; SLATCH turned to an input. -/
theorem test_witness_latch_while_low :
    ((perform (.mode .slatch .input) pulsing).q ≠ pulsing.q ∧ (perform (.mode .slatch .input) pulsing).fcode = 5) ∧
    (perform (.drive .slatch true) { pulsing with sr := defined 0#16 }).q ≠ pulsing.q ∧
      (perform (.drive .slatch true) { pulsing with sr := defined 0#16 }).fcode = 5 := by decide +kernel

/-- SettleDelayCommitsThePendingWrite: committed, none pending, WE low. -/
theorem test_witness_settle :
    (settling.pendingWrite = some (0x010, 0x5A) ∧ settling.weLvl = true) ∧ ready.pendingWrite = none ∧
      pulsing.weLvl = false := by decide +kernel

/-- OnlyAccToRdataWritesTheResult. -/
theorem test_witness_other_microop : MicroOp.accClear ≠ .accToRdata := by decide

/-- ReadAfterWrite. -/
theorem test_witness_memory : Memory.wf [(3, 7), (9, 1)] ∧ (4 : Nat) ≠ 3 := by decide

theorem settling_step : ∃ t, step settling = .next t ∧ t.mem = [(0x010, 0x5A)] := ⟨_, rfl, by decide +kernel⟩

/-- ArrayChangesOnlyAtTheCommit. -/
theorem test_witness_ArrayChanges : ∃ t, step settling = .next t ∧ t.mem ≠ settling.mem := by
  obtain ⟨t, h, hm⟩ := settling_step
  exact ⟨t, h, by rw [hm]; decide +kernel⟩

/-- LatchChangesOnlyAtSlatchEvents. -/
theorem test_witness_LatchChanges :
    ∃ t, step { writing with sr := defined 0#16, pending := [.drive .slatch true] } = .next t ∧
      t.q ≠ writing.q := ⟨_, rfl, by decide +kernel⟩

/-- StepKeepsTheArrayForm: a state whose next step commits. -/
theorem test_witness_MemInv : settling.MemInv ∧ ∃ t, step settling = .next t :=
  ⟨⟨List.Pairwise.nil, fun _ h => absurd h (List.not_mem_nil), fun a d h => by
    have e : settling.pendingWrite = some (0x010, 0x5A) := by decide +kernel
    rw [e] at h
    cases h
    decide +kernel⟩, ⟨_, rfl⟩⟩

theorem ready_runPhase : ready.RunPhase .high :=
  ⟨by decide +kernel, ready_controlPinsOut, by decide +kernel, by decide +kernel, by decide +kernel, by decide +kernel,
    by decide +kernel, by decide +kernel⟩

/-- ReadyLaunchIsIdle, and the runs of several commands (WriteThenReadReturnsTheByte,
SetaddrAndWepulseRewriteTheDrivenByte, ReadTwiceReturnsTheSameByte, DataPinsKeepTheWrittenByte): the ready state,
whatever the host presents, and the last cell. -/
theorem test_witness_LaunchInv_ready (ws : List CmdWord) :
    ({ ready with hostCmds := ws } : State).LaunchInv ∧ ({ ready with hostCmds := ws } : State).cmdReady = true ∧
      ({ ready with hostCmds := ws } : State).mem.wf ∧
      ({ ready with hostCmds := ws } : State).cfg.params.responder = .reference ∧
      (0x7FF : Addr).toNat < ({ ready with hostCmds := ws } : State).cfg.params.eepromSize ∧
      ({ ready with hostCmds := ws } : State).hostCmds = ws :=
  ⟨fun _ => .inr ⟨.high, ready_runPhase.done,
      ⟨ready_controlPinsOut.sdata, ready_controlPinsOut.sclk, ready_controlPinsOut.slatch, ready_controlPinsOut.we⟩,
      ready_runPhase.pulse, ready_runPhase.weLevel, ready_runPhase.write, ready_runPhase.fsm, ready_runPhase.sclk,
      ready_runPhase.slatch⟩, ready_cmdReady, List.Pairwise.nil, test_witness_cell_in_range.2.2.1,
    test_witness_cell_in_range.2.1, rfl⟩

/-- The launch at power-up, the first phase of INIT. -/
theorem test_witness_LaunchInv_init : (State.powerUp (cfgWith .reference)).InitPhase 0 :=
  ⟨by decide, rfl, rfl, rfl, rfl, rfl, rfl, rfl, rfl, fun h => absurd h (by decide), fun h => absurd h (by decide),
    fun h => absurd h (by decide)⟩

theorem test_witness_LaunchInv_low : pulsing.RunPhase .low :=
  ⟨by decide +kernel, ⟨by decide +kernel, by decide +kernel, by decide +kernel, by decide +kernel⟩, by decide +kernel,
    by decide +kernel, by decide +kernel, by decide +kernel, by decide +kernel, by decide +kernel⟩

theorem test_witness_LaunchInv_lowTimed : pulseTimed.RunPhase .lowTimed :=
  ⟨by decide +kernel, ⟨by decide +kernel, by decide +kernel, by decide +kernel, by decide +kernel⟩, by decide +kernel,
    by decide +kernel, by decide +kernel, by decide +kernel, by decide +kernel, by decide +kernel⟩

theorem test_witness_LaunchInv_settling : settling.RunPhase .settling :=
  ⟨by decide +kernel, ⟨by decide +kernel, by decide +kernel, by decide +kernel, by decide +kernel⟩, by decide +kernel,
    by decide +kernel, by decide +kernel, by decide +kernel, by decide +kernel, by decide +kernel⟩

/-- WriteEnableIsHighOutsideThePulse: WE high, and WE low at each of the pulse's two low states. -/
theorem test_witness_WriteEnable :
    (ready.LaunchInv ∧ ready.faulted = false ∧ ready.initDone = true) ∧
      (pulsing.LaunchInv ∧ pulsing.faulted = false ∧ pulsing.initDone = true) ∧
      (pulseTimed.LaunchInv ∧ pulseTimed.faulted = false ∧ pulseTimed.initDone = true) :=
  ⟨⟨fun _ => .inr ⟨_, ready_runPhase⟩, by decide +kernel, by decide +kernel⟩,
    ⟨fun _ => .inr ⟨_, test_witness_LaunchInv_low⟩, by decide +kernel, by decide +kernel⟩,
    ⟨fun _ => .inr ⟨_, test_witness_LaunchInv_lowTimed⟩, by decide +kernel, by decide +kernel⟩⟩

/-- WriteEnableIsHighOutsideThePulse, before INIT is done. -/
theorem test_witness_WriteEnable_init :
    (State.powerUp (cfgWith .reference)).LaunchInv ∧ (State.powerUp (cfgWith .reference)).faulted = false ∧
      (State.powerUp (cfgWith .reference)).initDone = false :=
  ⟨fun _ => .inl ⟨0, test_witness_LaunchInv_init⟩, rfl, rfl⟩

/-- A READ's transitions, the rest of its micro-operations left out. -/
def moving : State := { ready with pending := [.setFsm .addressingRead, .setFsm .samplingRead, .setFsm .idle] }

/-- StepKeepsTheLaunchInvariant, CellAccessorTransitions: a step of a launch that changes `fsm`. -/
theorem test_witness_fsm_step : moving.LaunchInv ∧ ∃ t, step moving = .next t ∧ t.fsm = .addressingRead :=
  ⟨fun _ => .inr ⟨.high, by decide +kernel,
    ⟨by decide +kernel, by decide +kernel, by decide +kernel, by decide +kernel⟩, by decide +kernel, by decide +kernel,
    by decide +kernel, by decide +kernel, by decide +kernel, by decide +kernel⟩, ⟨_, rfl, rfl⟩⟩

end Sys2Proof.Tests
end

namespace Sys2Proof.Machine

/-! ### The result registers (10_state.md R26) -/

section result
variable (s : State)

@[simp] theorem react_rdata (p : Pin) (old : State) : (react p old s).rdata = s.rdata := by rw [react_eq]
@[simp] theorem react_rdataValid (p : Pin) (old : State) : (react p old s).rdataValid = s.rdataValid := by rw [react_eq]
@[simp] theorem sample_rdata (i : Fin 8) : (sample i s).rdata = s.rdata := by rw [sample_eq]
@[simp] theorem sample_rdataValid (i : Fin 8) : (sample i s).rdataValid = s.rdataValid := by rw [sample_eq]
@[simp] theorem commit_rdata : (commit s).rdata = s.rdata := by rw [commit_eq]
@[simp] theorem commit_rdataValid : (commit s).rdataValid = s.rdataValid := by rw [commit_eq]

end result

/-- A micro-operation other than `AccToRdata` keeps the result: none of the devices' reactions touches it (R26). -/
theorem perform_keeps_result {op : MicroOp} (h : op ≠ .accToRdata) (s : State) :
    (perform op s).rdata = s.rdata ∧ (perform op s).rdataValid = s.rdataValid := by
  cases op with
  | mode p m => simp [perform]
  | drive p v => simp [perform]
  | sampleInto i => simp [perform]
  | delayMs n => simp [perform]
  | accToRdata => exact absurd rfl h
  | delayUs n => exact ⟨rfl, rfl⟩
  | setFsm f => exact ⟨rfl, rfl⟩
  | accClear => exact ⟨rfl, rfl⟩
  | initDone => exact ⟨rfl, rfl⟩

/-- What accepting an illegal word can answer: the fault at acceptance (R40, R112). -/
theorem issueIllegal_cases {s t : State} {w : CmdWord} (h : issueIllegal w s = .next t) :
    s.cmdReady = true ∧ t = (s.announce w).raise ⟨.illegalCommand, none, none⟩ := by
  unfold issueIllegal at h
  split at h
  · cases h; exact ⟨by assumption, rfl⟩
  · cases h

/-- Accepting a command makes the result stale, also where the acceptance faults (R26, R40). -/
theorem exec_makes_result_stale {s t : State} {i : Instr} (h : exec i s = .next t) :
    t.rdata = s.rdata ∧ t.rdataValid = false := by
  obtain ⟨-, rfl | ⟨addr, -, rfl⟩⟩ := exec_cases h
  · exact ⟨rfl, rfl⟩
  · simp

theorem issueIllegal_makes_result_stale {s t : State} {w : CmdWord} (h : issueIllegal w s = .next t) :
    t.rdata = s.rdata ∧ t.rdataValid = false := by
  obtain ⟨-, rfl⟩ := issueIllegal_cases h
  simp

/-- Settles O48: the frame of each micro-operation, and the two acceptances. -/
theorem onlyAccToRdataWritesTheResult : Obligations.OnlyAccToRdataWritesTheResult :=
  ⟨fun s _ => ⟨⟨rfl, rfl⟩, fun h => perform_keeps_result h s⟩, fun _ _ _ => exec_makes_result_stale,
    fun _ _ _ => issueIllegal_makes_result_stale, fun _ => ⟨rfl, rfl⟩⟩

/-! ### Power-up (10_state.md R43) -/

@[simp] theorem powerUp_mode (c : Config) (p : Pin) : (State.powerUp c).mode p = .input := by
  simp [State.mode, State.powerUp]

@[simp] theorem powerUp_out (c : Config) (p : Pin) : (State.powerUp c).out p = .undef := by
  simp [State.out, State.powerUp, undefined]

/-- A cell nothing was committed to holds `MEM0` (R33, R85). -/
@[simp] theorem memRead_nil (a : Nat) : memRead [] a = Config.mem0 a := rfl

/-- Settles O18: each field as `State.powerUp` gives it; the pins and the array through their reads. -/
theorem powerUpValues : Obligations.PowerUpValues := by
  intro c
  have hpins : ∀ p, (State.powerUp c).mode p = .input ∧ (State.powerUp c).out p = .undef :=
    fun p => ⟨powerUp_mode c p, powerUp_out c p⟩
  have hmem : ∀ a, memRead (State.powerUp c).mem a = Config.mem0 a := memRead_nil
  exact ⟨rfl, rfl, rfl, rfl, rfl, rfl, rfl, rfl, rfl, hpins, rfl, rfl, hmem, rfl, ⟨rfl, rfl, rfl⟩, rfl, rfl⟩

end Sys2Proof.Machine

namespace Sys2Proof.Machine

/-! ### The checks of a sample, one by one (20_memory.md R77) -/

/-- A register has no value exactly when one of its bits is `⊥` (R11). -/
theorem bits?_eq_none_iff {n : Nat} (v : LVec n) : bits? v = none ↔ ∃ k : Fin n, v[k.val] = .undef := by
  simp [bits?]

section sample
variable {s : State} (i : Fin 8)

theorem sampleCheck_of_data_output (hm : ∃ j, s.mode (.d j) ≠ .input) :
    sampleCheck i s = .error ⟨.busDirection, some (.d i), none⟩ := if_pos hm

variable (hm : ∀ j, s.mode (.d j) = .input)
include hm

theorem sampleCheck_of_we_low (hl : s.weLvl = false) :
    sampleCheck i s = .error ⟨.directionMask, some (.d i), none⟩ := by
  simp [sampleCheck, hm, hl]

variable (hl : s.weLvl = true)
include hl

theorem sampleCheck_of_latch_undefined (hq : ∃ k : Fin 16, s.q[k.val] = .undef) :
    sampleCheck i s = .error ⟨.undefinedLevel, some (.d i), none⟩ := by
  simp [sampleCheck, hm, hl, (bits?_eq_none_iff s.q).2 hq]

variable {w : AddrWord} (hq : s.q = defined w)
include hq

theorem sampleCheck_of_mask_write (hw : dirMask w = true) :
    sampleCheck i s = .error ⟨.directionMask, some (.d i), none⟩ := by
  simp [sampleCheck, hm, hl, hq, hw]

variable (hw : dirMask w = false)
include hw

theorem sampleCheck_of_out_of_range (ha : s.cfg.params.eepromSize ≤ (addrLines w).toNat) :
    sampleCheck i s = .error ⟨.addressOutOfRange, none, some (addrLines w)⟩ := by
  simp [sampleCheck, hm, hl, hq, hw, ha]

theorem sampleCheck_of_write_pending (ha : (addrLines w).toNat < s.cfg.params.eepromSize)
    (hp : s.pendingWrite ≠ none) : sampleCheck i s = .error ⟨.undefinedLevel, some (.d i), none⟩ := by
  simp [sampleCheck, hm, hl, hq, hw, Nat.not_le.2 ha, hp]

end sample

/-- Past its checks a sample traces the addressed cell's bit under the reference responder (R77). -/
theorem sample_trace_reference {s : State} {i : Fin 8} {a : Addr} (h : sampleCheck i s = .ok a)
    (hr : s.cfg.params.responder = .reference) :
    (sample i s).trace = s.trace ++ [.sample (.d i) (levelOf ((memRead s.mem a.toNat).getLsbD i.val))] := by
  rw [sample_of_ok s i a h]
  simp [sampleAnswer, hr]

/-- Settles O41: one lemma per check, each under the premises that let the earlier checks pass. -/
theorem sampleChecksInOrder : Obligations.SampleChecksInOrder := by
  intro s i
  refine ⟨sampleCheck_of_data_output i, fun hm => ⟨sampleCheck_of_we_low i hm, fun hl =>
    ⟨sampleCheck_of_latch_undefined i hm hl, fun w hq =>
      ⟨sampleCheck_of_mask_write i hm hl hq, fun hw => ⟨sampleCheck_of_out_of_range i hm hl hq hw, fun ha =>
        ⟨sampleCheck_of_write_pending i hm hl hq hw ha, fun hp => ?_⟩⟩⟩⟩⟩⟩
  have hok := sampleCheck_ok i hm hl hq hw ha hp
  exact ⟨hok, sample_trace_reference hok⟩

/-! ### The checks of a capture, one by one (20_memory.md R78) -/

/-- The data registers have no byte exactly when one of them is `⊥` (R78). -/
theorem bits?_dataOut_eq_none_iff (s : State) : bits? s.dataOut = none ↔ ∃ j, s.out (.d j) = .undef := by
  simp [bits?_eq_none_iff, State.dataOut]

theorem weEdge_of_fall {s : State} (hl : s.weLvl = false) : weEdge true s = capture s := if_pos ⟨rfl, hl⟩

theorem capture_of_error {s : State} {r : Raise} (h : captureCheck s = .error r) : capture s = s.raise r := by
  simp only [capture, h]

theorem capture_of_ok {s : State} {c : Addr × Byte} (h : captureCheck s = .ok c) :
    capture s = { s with pendingWrite := some c } := by
  simp only [capture, h]

section capture
variable {s : State}

theorem captureCheck_of_data_input (hm : ∃ j, s.mode (.d j) ≠ .output) :
    captureCheck s = .error ⟨.busDirection, some .we, none⟩ := if_pos hm

variable (hm : ∀ j, s.mode (.d j) = .output)
include hm

/-- The latch or the data registers have no value: the same fault for either. -/
theorem captureCheck_of_undefined (h : (∃ k : Fin 16, s.q[k.val] = .undef) ∨ ∃ j, s.out (.d j) = .undef) :
    captureCheck s = .error ⟨.undefinedLevel, some .we, none⟩ := by
  rw [← bits?_eq_none_iff, ← bits?_dataOut_eq_none_iff] at h
  rcases h with hq | hd
  · simp [captureCheck, hm, hq]
  · simp [captureCheck, hm, hd]

variable {w : AddrWord} {d : Byte} (hq : s.q = defined w) (hd : ∀ j : Fin 8, s.out (.d j) = levelOf (d.getLsbD j.val))
include hq hd

theorem captureCheck_of_mask_read (hw : dirMask w = false) :
    captureCheck s = .error ⟨.directionMask, some .we, none⟩ := by
  simp [captureCheck, hm, hq, dataOut_eq_defined hd, hw]

variable (hw : dirMask w = true)
include hw

theorem captureCheck_of_out_of_range (ha : s.cfg.params.eepromSize ≤ (addrLines w).toNat) :
    captureCheck s = .error ⟨.addressOutOfRange, none, some (addrLines w)⟩ := by
  simp [captureCheck, hm, hq, dataOut_eq_defined hd, hw, ha]

theorem captureCheck_of_write_pending (ha : (addrLines w).toNat < s.cfg.params.eepromSize)
    (hp : s.pendingWrite ≠ none) : captureCheck s = .error ⟨.undefinedLevel, some .we, none⟩ := by
  simp [captureCheck, hm, hq, dataOut_eq_defined hd, hw, Nat.not_le.2 ha, hp]

end capture

/-- Settles O42: one lemma per check, each under the premises that let the earlier checks pass. -/
theorem captureChecksInOrder : Obligations.CaptureChecksInOrder := by
  intro s
  have hfall : ∀ before : State, before.weLvl = true → s.weLvl = false → react .we before s = capture s := by
    intro before hb hl
    simp only [react, hb, weEdge_of_fall hl]
  refine ⟨hfall, fun _ => capture_of_error, captureCheck_of_data_input, fun hm =>
    ⟨captureCheck_of_undefined hm, fun w d hq hd => ⟨captureCheck_of_mask_read hm hq hd, fun hw =>
      ⟨captureCheck_of_out_of_range hm hq hd hw, fun ha =>
        ⟨captureCheck_of_write_pending hm hq hd hw ha, fun hp => ?_⟩⟩⟩⟩⟩
  have hok := captureCheck_ok hm hq hd hw ha hp
  exact ⟨hok, capture_of_ok hok⟩

/-! ### The responder does not see the shift chain (20_memory.md R82)

Each reaction of the responder commutes with replacing the chain. What it looks at (`weLvl`, the checks, the answer) is
the same in both states by definition; the branches then agree one by one. -/

section chain
variable (s : State) (v : LVec 16)

theorem raise_withChain (r : Raise) : ({ s with sr := v } : State).raise r = { s.raise r with sr := v } := by
  unfold State.raise
  split <;> rfl

theorem whileLow_withChain (p : Pin) : whileLow p { s with sr := v } = { whileLow p s with sr := v } := by
  have hl : ({ s with sr := v } : State).weLvl = s.weLvl := rfl
  unfold whileLow
  rw [hl]
  split
  · exact raise_withChain s v _
  · rfl

theorem capture_withChain : capture { s with sr := v } = { capture s with sr := v } := by
  have hc : captureCheck { s with sr := v } = captureCheck s := rfl
  cases h : captureCheck s with
  | error r => rw [capture_of_error h, capture_of_error (hc.trans h), raise_withChain]
  | ok c => rw [capture_of_ok h, capture_of_ok (hc.trans h)]

theorem weEdge_withChain (old : Bool) : weEdge old { s with sr := v } = { weEdge old s with sr := v } := by
  have hl : ({ s with sr := v } : State).weLvl = s.weLvl := rfl
  unfold weEdge
  rw [hl]
  split
  · exact capture_withChain s v
  · rfl

theorem sample_withChain (i : Fin 8) : sample i { s with sr := v } = { sample i s with sr := v } := by
  have hc : sampleCheck i { s with sr := v } = sampleCheck i s := rfl
  unfold sample
  rw [hc]
  split
  · exact raise_withChain (s.emit (.sample (.d i) .undef)) v _
  · rfl

theorem commit_withChain : commit { s with sr := v } = { commit s with sr := v } := by
  have hl : ({ s with sr := v } : State).weLvl = s.weLvl := rfl
  unfold commit
  simp only [hl]
  split
  · split <;> rfl
  · rfl

end chain

/-- Settles O49: the pin update and the event do not see the chain, and neither do the reactions to them. -/
theorem responderNeverReadsTheChain : Obligations.ResponderNeverReadsTheChain := by
  intro s v i n
  refine ⟨sample_withChain s v i, commit_withChain (s.emit (.delayMs n)) v, fun b => ⟨?_, ?_⟩, fun m => ⟨?_, ?_⟩⟩
  · exact weEdge_withChain ((s.setOut .we (levelOf b)).emit (.drive .we b)) v s.weLvl
  · exact whileLow_withChain ((s.setOut (.d i) (levelOf b)).emit (.drive (.d i) b)) v (.d i)
  · exact weEdge_withChain ((s.setMode .we m).emit (.mode .we m)) v s.weLvl
  · exact whileLow_withChain ((s.setMode (.d i) m).emit (.mode (.d i) m)) v (.d i)

end Sys2Proof.Machine

namespace Sys2Proof

/-! ### A command word is its fields (30_encoding.md R107, R108) -/

theorem word_eq_fields (w : CmdWord) :
    w = fieldOp w ++ fieldRsv1 w ++ BitVec.ofBool (fieldF w) ++ fieldData w ++ BitVec.ofBool (fieldRsv0 w) ++
      fieldAddr w := by
  apply BitVec.eq_of_getLsbD_eq
  intro i hi
  simp only [BitVec.getLsbD_append, fieldOp, fieldRsv1, fieldF, fieldData, fieldRsv0, fieldAddr,
    BitVec.getLsbD_extractLsb', BitVec.getLsbD_ofBool]
  interval_cases i <;> simp

/-- Two words are equal when their fields are (R108). -/
theorem word_eq_iff_fields (w w' : CmdWord) :
    w = w' ↔ fieldOp w = fieldOp w' ∧ (fieldRsv1 w = fieldRsv1 w' ∧ fieldRsv0 w = fieldRsv0 w') ∧
      fieldF w = fieldF w' ∧ fieldData w = fieldData w' ∧ fieldAddr w = fieldAddr w' := by
  refine ⟨fun h => h ▸ ⟨rfl, ⟨rfl, rfl⟩, rfl, rfl, rfl⟩, fun ⟨hop, ⟨hr1, hr0⟩, hf, hd, ha⟩ => ?_⟩
  rw [word_eq_fields w, word_eq_fields w', hop, hr1, hr0, hf, hd, ha]

@[simp] theorem fieldOp_and (w m : CmdWord) : fieldOp (w &&& m) = fieldOp w &&& fieldOp m := BitVec.extractLsb'_and
@[simp] theorem fieldRsv1_and (w m : CmdWord) : fieldRsv1 (w &&& m) = fieldRsv1 w &&& fieldRsv1 m :=
  BitVec.extractLsb'_and
@[simp] theorem fieldF_and (w m : CmdWord) : fieldF (w &&& m) = (fieldF w && fieldF m) := BitVec.getLsbD_and
@[simp] theorem fieldData_and (w m : CmdWord) : fieldData (w &&& m) = fieldData w &&& fieldData m :=
  BitVec.extractLsb'_and
@[simp] theorem fieldRsv0_and (w m : CmdWord) : fieldRsv0 (w &&& m) = (fieldRsv0 w && fieldRsv0 m) := BitVec.getLsbD_and
@[simp] theorem fieldAddr_and (w m : CmdWord) : fieldAddr (w &&& m) = fieldAddr w &&& fieldAddr m :=
  BitVec.extractLsb'_and

/-! ### When a row of the opcode map matches (R109 to R111) -/

/-- A row matches a word whose masked fields are those of the row's pattern. -/
theorem matchesWord_iff_fields (r : OpRow) (w : CmdWord) :
    r.matchesWord w = true ↔
      fieldOp w &&& fieldOp r.mask = fieldOp r.pattern ∧
      (fieldRsv1 w &&& fieldRsv1 r.mask = fieldRsv1 r.pattern ∧
        (fieldRsv0 w && fieldRsv0 r.mask) = fieldRsv0 r.pattern) ∧
      (fieldF w && fieldF r.mask) = fieldF r.pattern ∧
      fieldData w &&& fieldData r.mask = fieldData r.pattern ∧
      fieldAddr w &&& fieldAddr r.mask = fieldAddr r.pattern := by
  simp only [OpRow.matchesWord, beq_iff_eq, word_eq_iff_fields, fieldOp_and, fieldRsv1_and, fieldF_and, fieldData_and,
    fieldRsv0_and, fieldAddr_and]

/-- The fields of each row: the mask covers OP, the reserved bits and the operands the opcode lacks, and the pattern is
OP alone (R109, R110). -/
theorem opcodeMap_fields : ∀ r ∈ opcodeMap,
    (fieldOp r.mask = .allOnes 4 ∧ fieldOp r.pattern = r.opcode.code) ∧
    (fieldRsv1 r.mask = .allOnes 3 ∧ fieldRsv1 r.pattern = 0) ∧
    (fieldRsv0 r.mask = true ∧ fieldRsv0 r.pattern = false) ∧
    (fieldF r.mask = decide (r.opcode.code ≠ 0x1) ∧ fieldF r.pattern = false) ∧
    (fieldData r.mask = (if r.opcode.code ≠ 0x6 then .allOnes 8 else 0) ∧ fieldData r.pattern = 0) ∧
    (fieldAddr r.mask =
        (if r.opcode.code = 0x2 ∨ r.opcode.code = 0x3 ∨ r.opcode.code = 0x4 then .allOnes 15 else 0) ∧
      fieldAddr r.pattern = 0) := by decide

/-- A reserved bit is set, or a field that the command of the word's OP does not use: R112's cases but the first. -/
def UnusedFieldSet (w : CmdWord) : Prop :=
  (fieldRsv1 w ≠ 0 ∨ fieldRsv0 w = true) ∨
  (fieldF w = true ∧ fieldOp w ≠ 0x1) ∨
  (fieldData w ≠ 0 ∧ fieldOp w ≠ 0x6) ∨
  (fieldAddr w ≠ 0 ∧ (fieldOp w = 0x2 ∨ fieldOp w = 0x3 ∨ fieldOp w = 0x4))

theorem not_unusedFieldSet_iff (w : CmdWord) :
    ¬ UnusedFieldSet w ↔ (fieldRsv1 w = 0 ∧ fieldRsv0 w = false) ∧ (fieldOp w ≠ 0x1 → fieldF w = false) ∧
      (fieldOp w ≠ 0x6 → fieldData w = 0) ∧
      (fieldOp w = 0x2 ∨ fieldOp w = 0x3 ∨ fieldOp w = 0x4 → fieldAddr w = 0) := by
  simp only [UnusedFieldSet, not_or, not_and', ne_eq, not_not, Bool.not_eq_true]

/-- Under a mask of all ones or none, a field is zero when it is zero where masked. -/
theorem and_allOnes_if_eq_zero_iff {n : Nat} (p : Prop) [Decidable p] (x : BitVec n) :
    x &&& (if p then .allOnes n else 0) = 0 ↔ (p → x = 0) := by
  by_cases h : p
  · rw [if_pos h, BitVec.and_allOnes, forall_prop_of_true h]
  · exact iff_of_true (by rw [if_neg h]; exact BitVec.and_zero) fun hp => absurd hp h

/-- A row matches the words with its OP and no unused field set (R109, R111). -/
theorem matchesWord_iff {r : OpRow} (hr : r ∈ opcodeMap) (w : CmdWord) :
    r.matchesWord w = true ↔ fieldOp w = r.opcode.code ∧ ¬ UnusedFieldSet w := by
  obtain ⟨⟨hopm, hopp⟩, ⟨hr1m, hr1p⟩, ⟨hr0m, hr0p⟩, ⟨hfm, hfp⟩, ⟨hdm, hdp⟩, ⟨ham, hap⟩⟩ := opcodeMap_fields r hr
  rw [matchesWord_iff_fields, hopm, hopp, hr1m, hr1p, hr0m, hr0p, hfm, hfp, hdm, hdp, ham, hap, BitVec.and_allOnes,
    BitVec.and_allOnes, Bool.and_true, Bool.and_comm (fieldF w), Bool.and_eq_false_imp, decide_eq_true_iff,
    and_allOnes_if_eq_zero_iff, and_allOnes_if_eq_zero_iff, not_unusedFieldSet_iff]
  exact and_congr_right fun hop => by rw [hop]

/-- The opcode numbers assigned are 0x1 to 0x6 (R110). -/
theorem exists_row_with_code_iff (op : BitVec 4) :
    (∃ r ∈ opcodeMap, op = r.opcode.code) ↔ ¬ (op.toNat = 0 ∨ 7 ≤ op.toNat) := by
  revert op; decide

theorem exists_row_matches_iff (w : CmdWord) :
    (∃ r ∈ opcodeMap, r.matchesWord w = true) ↔
      ¬ ((fieldOp w).toNat = 0 ∨ 7 ≤ (fieldOp w).toNat) ∧ ¬ UnusedFieldSet w := by
  rw [← exists_row_with_code_iff]
  constructor
  · rintro ⟨r, hr, hm⟩
    obtain ⟨hop, hu⟩ := (matchesWord_iff hr w).1 hm
    exact ⟨⟨r, hr, hop⟩, hu⟩
  · rintro ⟨⟨r, hr, hop⟩, hu⟩
    exact ⟨r, hr, (matchesWord_iff hr w).2 ⟨hop, hu⟩⟩

/-! ### Illegal words (R112) -/

theorem decode_illegal_iff_no_row (w : CmdWord) :
    (∃ why, decode w = .illegal why) ↔ ¬ ∃ r ∈ opcodeMap, r.matchesWord w = true := by
  rw [← List.find?_isSome, decode]
  cases opcodeMap.find? (·.matchesWord w) with
  | none => simp
  | some r => simp

theorem decode_illegal_iff (w : CmdWord) :
    (∃ why, decode w = .illegal why) ↔
      ((fieldOp w).toNat = 0 ∨ 7 ≤ (fieldOp w).toNat) ∨ UnusedFieldSet w := by
  rw [decode_illegal_iff_no_row, exists_row_matches_iff, ← not_or, not_not]

end Sys2Proof

namespace Sys2Proof.Machine

theorem issueIllegal_ready {s : State} (h : s.cmdReady = true) (w : CmdWord) :
    issueIllegal w s = .next ((s.announce w).raise ⟨.illegalCommand, none, none⟩) := if_pos h

/-- A ready core takes an illegal word of the host as a fault (R40, R112). -/
theorem step_of_illegal {s : State} {w : CmdWord} {ws : List CmdWord} {why : IllegalReason}
    (hd : decode w = .illegal why) (hr : s.cmdReady = true) (hc : s.hostCmds = w :: ws) :
    step s = .next ((({ s with hostCmds := ws } : State).announce w).raise ⟨.illegalCommand, none, none⟩) := by
  obtain ⟨-, hp, -, hf⟩ := (cmdReady_iff s).1 hr
  rw [step_of_hostCmds hf hp hc, hd]
  exact issueIllegal_ready (s := { s with hostCmds := ws }) hr w

/-- Settles O3: no row matches exactly in R112's cases, and the acceptance is `Cmd(w)` and then the fault. -/
theorem illegalWordsAreExactlyThoseListed : Obligations.IllegalWordsAreExactlyThoseListed := by
  refine fun w => ⟨decode_illegal_iff w, ?_⟩
  rintro ⟨why, hd⟩ s ws hr hc
  obtain ⟨-, -, -, hf⟩ := (cmdReady_iff s).1 hr
  refine ⟨_, step_of_illegal hd hr hc, ?_⟩
  rw [raise_first (s := ({ s with hostCmds := ws } : State).announce w) hf]
  exact ⟨rfl, rfl, rfl⟩

/-- Settles O6: the layout is the definition's; M and the address come back by the laws of the address word. -/
theorem addressWordLayout : Obligations.AddressWordLayout := by
  intro addr rw
  have hlines := addrLines_addrWord addr rw
  have hhi : (addrWord addr rw).extractLsb' 8 7 = (addrLines (addrWord addr rw)).extractLsb' 8 7 :=
    (BitVec.extractLsb'_extractLsb'_of_le (by decide)).symm
  exact ⟨rfl, dirMask_addrWord addr rw, hhi.trans (by rw [hlines]), BitVec.extractLsb'_append_eq_right, hlines⟩

end Sys2Proof.Machine

namespace Sys2Proof.Machine

/-! ### INIT from power-up (70_reset_and_hazards.md R241) -/

/-- The launch once INIT has run from power-up: the four control pins are outputs, WE high and the others low. -/
def State.afterInit (c : Config) : State :=
  { State.powerUp c with
    pending := []
    initDone := true
    modes := ((((State.powerUp c).modes.set 11 .output).set 0 .output).set 1 .output).set 2 .output
    outs := ((((State.powerUp c).outs.set 11 .high).set 0 .low).set 1 .low).set 2 .low
    trace := eventsOf initSeq }

/-- INIT runs its nine micro-operations without a fault; the undefined chain and latch it leaves are those of power-up. -/
theorem runSteps_powerUp (c : Config) : runSteps 9 (State.powerUp c) = .next (State.afterInit c) := by
  have e := performAll_initSeq (State.powerUp c) (powerUp_mode c .we) (powerUp_mode c .sclk) (powerUp_mode c .slatch)
  have hrun := run_of_pending initSeq [] (State.powerUp c) rfl (by rw [e]; rfl)
  rw [e] at hrun
  exact hrun

/-- A per-pin register whose control pins INIT has set: `w` at WE, `l` at the shift pins, the data pins untouched. -/
theorem getElem_controlPins {α : Type} (v : Vector α 12) (w l : α) (p : Pin) :
    ((((v.set 11 w).set 0 l).set 1 l).set 2 l)[(pinIndex p).val]
      = (match p with | .d _ => v[(pinIndex p).val] | .we => w | _ => l) := by
  cases p with
  | d i => have := i.isLt; simp (disch := omega) only [pinIndex, Vector.getElem_set_ne]
  | we => simp [pinIndex]
  | sdata => simp [pinIndex]
  | sclk => simp [pinIndex]
  | slatch => simp [pinIndex]

theorem afterInit_mode (c : Config) (p : Pin) :
    (State.afterInit c).mode p = (match p with | .d _ => .input | _ => .output) := by
  refine (getElem_controlPins (State.powerUp c).modes _ _ p).trans ?_
  cases p with
  | d i => exact powerUp_mode c (.d i)
  | _ => rfl

theorem afterInit_out (c : Config) (p : Pin) :
    (State.afterInit c).out p = (match p with | .d _ => .undef | .we => .high | _ => .low) := by
  refine (getElem_controlPins (State.powerUp c).outs _ _ p).trans ?_
  cases p with
  | d i => exact powerUp_out c (.d i)
  | _ => rfl

/-- Settles O20: the nine steps lead to `State.afterInit`; a control pin's level is its output register's. -/
theorem initSequenceRuns : Obligations.InitSequenceRuns := by
  intro c
  have hcontrol : (State.afterInit c).lvl .we = .high ∧ (State.afterInit c).lvl .sdata = .low ∧
      (State.afterInit c).lvl .sclk = .low ∧ (State.afterInit c).lvl .slatch = .low := by
    simp only [lvl_of_output, afterInit_mode, afterInit_out, and_self]
  exact ⟨State.afterInit c, runSteps_powerUp c, rfl, rfl, hcontrol,
    fun i => ⟨afterInit_mode c (.d i), afterInit_out c (.d i)⟩, rfl⟩

end Sys2Proof.Machine

namespace Sys2Proof

open Machine

/-! ### Decoding and encoding are inverse (30_encoding.md R107 to R111) -/

/-- Settles O4: a matching row has the word's OP, and no two rows share an opcode number. -/
theorem atMostOneRowMatches : Obligations.AtMostOneRowMatches := by
  intro w r r' hr hr' hm hm'
  have hcode : ∀ r ∈ opcodeMap, ∀ r' ∈ opcodeMap, r.opcode.code = r'.opcode.code → r = r' := by decide
  obtain ⟨hop, -⟩ := (matchesWord_iff hr w).1 hm
  obtain ⟨hop', -⟩ := (matchesWord_iff hr' w).1 hm'
  exact hcode r hr r' hr' (hop.symm.trans hop')

/-- The row the decoder's search finds is one of the map's, and it matches. -/
theorem row_of_find? {w : CmdWord} {r : OpRow} (h : opcodeMap.find? (·.matchesWord w) = some r) :
    r ∈ opcodeMap ∧ r.matchesWord w = true :=
  ⟨List.mem_of_find?_eq_some h, List.find?_some (p := fun x : OpRow => x.matchesWord w) h⟩

/-- The command of the row that matches: the search stops at that row, since no other matches (R111). -/
theorem decode_of_matchesWord {w : CmdWord} {r : OpRow} (hr : r ∈ opcodeMap) (hm : r.matchesWord w = true) :
    decode w = .cmd (operandsOf w r.opcode) := by
  cases hf : opcodeMap.find? (·.matchesWord w) with
  | none => exact absurd hm (List.find?_eq_none.1 hf r hr)
  | some r' =>
    obtain ⟨hr', hm'⟩ := row_of_find? hf
    obtain rfl := atMostOneRowMatches w r r' hr hr' hm hm'
    rw [decode, hf]

/-- A word the decoder accepts matches a row, and the command is that row's with the word's operands (R111). -/
theorem exists_row_of_decode {w : CmdWord} {i : Instr} (h : decode w = .cmd i) :
    ∃ r ∈ opcodeMap, r.matchesWord w = true ∧ i = operandsOf w r.opcode := by
  rw [decode] at h
  split at h
  · rename_i r hf
    obtain ⟨hr, hm⟩ := row_of_find? hf
    cases h
    exact ⟨r, hr, hm, rfl⟩
  · cases h

theorem exists_row_of_opcode (o : Opcode) : ∃ r ∈ opcodeMap, r.opcode = o := by
  cases o <;> decide

/-- The fields an encoded command sets are those of its row: its OP, and its operands (R107, R110). -/
theorem encode_fields (i : Instr) :
    fieldOp (encode i) = i.opcode.code ∧ ¬ UnusedFieldSet (encode i) ∧ operandsOf (encode i) i.opcode = i := by
  cases i <;> simp [encode, Instr.opcode, Opcode.code, UnusedFieldSet, operandsOf]

/-- Settles O1: the row of the command's opcode matches its word, and reads the operands back. -/
theorem decodeOfEncodeIsTheCommand : Obligations.DecodeOfEncodeIsTheCommand := by
  intro i
  obtain ⟨hop, hunused, hoperands⟩ := encode_fields i
  obtain ⟨r, hr, hro⟩ := exists_row_of_opcode i.opcode
  rw [decode_of_matchesWord hr ((matchesWord_iff hr _).2 ⟨by rw [hro, hop], hunused⟩), hro, hoperands]

/-- A word with a row's OP and no unused field set is the encoding of that row's command with its operands. -/
theorem encode_operandsOf {w : CmdWord} {o : Opcode} (hop : fieldOp w = o.code) (hu : ¬ UnusedFieldSet w) :
    encode (operandsOf w o) = w := by
  obtain ⟨⟨hr1, hr0⟩, hf, hd, ha⟩ := (not_unusedFieldSet_iff w).1 hu
  rw [hop] at hf hd ha
  rw [word_eq_iff_fields, hop, hr1, hr0]
  cases o with
  | setaddr => simp [operandsOf, encode, hd (by decide)]
  | busin => simp [operandsOf, encode, hf (by decide), hd (by decide), ha (by decide)]
  | busout => simp [operandsOf, encode, hf (by decide), hd (by decide), ha (by decide)]
  | wepulse => simp [operandsOf, encode, hf (by decide), hd (by decide), ha (by decide)]
  | read => simp [operandsOf, encode, hf (by decide), hd (by decide)]
  | write => simp [operandsOf, encode, hf (by decide)]

/-- Settles O2: the row that matched fixes every field of the word that is not an operand. -/
theorem encodeOfDecodeIsTheWord : Obligations.EncodeOfDecodeIsTheWord := by
  intro w i h
  obtain ⟨r, hr, hm, rfl⟩ := exists_row_of_decode h
  obtain ⟨hop, hu⟩ := (matchesWord_iff hr w).1 hm
  exact encode_operandsOf hop hu

/-- Settles O5: each word is the encoding of its command. -/
theorem specWordsDecode : Obligations.SpecWordsDecode := by
  have h := decodeOfEncodeIsTheCommand
  exact ⟨h (.setaddr 0x1234 true), h (.setaddr 0x005 false), h .busin, h .busout, h .wepulse, h (.read 0x005),
    h (.write 0x005 0xA5)⟩

/-! ### The assembler (R115) -/

/-- A number in range is its own operand. -/
theorem ofNat_eq_of_lt {n k : Nat} (h : k < 2 ^ n) : BitVec.ofNat n k = ⟨⟨k, h⟩⟩ :=
  BitVec.eq_of_toNat_eq (by simpa using Nat.mod_eq_of_lt h)

/-- Settles O60: the assembler's check is the range of the operands, and within it nothing is truncated. -/
theorem assemblerNeverTruncates : Obligations.AssemblerNeverTruncates := by
  have haddr : ∀ addr : Nat, addr ≤ 0x7FFF ↔ addr < 2 ^ 15 := fun addr => by omega
  have hdata : ∀ data : Nat, data ≤ 0xFF ↔ data < 2 ^ 8 := fun data => by omega
  refine ⟨fun addr rw => ?_, fun addr => ?_, fun addr data => ?_, rfl, rfl, rfl⟩
  · simp only [AsmCmd.assemble, AsmCmd.WellFormed, decide_eq_true_eq, haddr]
    split
    · rw [ofNat_eq_of_lt]
    · rfl
  · simp only [AsmCmd.assemble, AsmCmd.WellFormed, decide_eq_true_eq, haddr]
    split
    · rw [ofNat_eq_of_lt]
    · rfl
  · simp only [AsmCmd.assemble, AsmCmd.WellFormed, Bool.and_eq_true, decide_eq_true_eq, haddr, hdata]
    split
    · rename_i h
      rw [ofNat_eq_of_lt h.1, ofNat_eq_of_lt h.2]
    · rfl

end Sys2Proof

namespace Sys2Proof.Machine

/-! ### What a micro-operation does to one field (10_state.md R22, 20_memory.md R73 to R80) -/

section fields
variable (s : State)

@[simp] theorem react_modes (p : Pin) (old : State) : (react p old s).modes = s.modes := by rw [react_eq]
@[simp] theorem react_outs (p : Pin) (old : State) : (react p old s).outs = s.outs := by rw [react_eq]
@[simp] theorem react_fsm (p : Pin) (old : State) : (react p old s).fsm = s.fsm := by rw [react_eq]
@[simp] theorem react_initDone (p : Pin) (old : State) : (react p old s).initDone = s.initDone := by rw [react_eq]
@[simp] theorem sample_modes (i : Fin 8) : (sample i s).modes = s.modes := by rw [sample_eq]
@[simp] theorem sample_outs (i : Fin 8) : (sample i s).outs = s.outs := by rw [sample_eq]
@[simp] theorem sample_fsm (i : Fin 8) : (sample i s).fsm = s.fsm := by rw [sample_eq]
@[simp] theorem sample_initDone (i : Fin 8) : (sample i s).initDone = s.initDone := by rw [sample_eq]
@[simp] theorem sample_q (i : Fin 8) : (sample i s).q = s.q := by rw [sample_eq]
@[simp] theorem sample_pendingWrite (i : Fin 8) : (sample i s).pendingWrite = s.pendingWrite := by rw [sample_eq]
@[simp] theorem commit_modes : (commit s).modes = s.modes := by rw [commit_eq]
@[simp] theorem commit_outs : (commit s).outs = s.outs := by rw [commit_eq]
@[simp] theorem commit_fsm : (commit s).fsm = s.fsm := by rw [commit_eq]
@[simp] theorem commit_initDone : (commit s).initDone = s.initDone := by rw [commit_eq]
@[simp] theorem commit_q : (commit s).q = s.q := by rw [commit_eq]

end fields

/-- Only `Mode` changes a pin's mode, and only that pin's (R28). -/
theorem perform_mode (op : MicroOp) (s : State) (p : Pin) :
    (perform op s).mode p = (match op with | .mode p' m => if p = p' then m else s.mode p | _ => s.mode p) := by
  cases op with
  | mode p' m => exact (mode_congr (by simp [perform]) p).trans (mode_setMode s p' p m)
  | drive p' v => exact mode_congr (by simp [perform]) p
  | sampleInto i => exact mode_congr (by simp [perform]) p
  | delayMs n => exact mode_congr (by simp [perform]) p
  | delayUs n => rfl
  | setFsm f => rfl
  | accClear => rfl
  | accToRdata => rfl
  | initDone => rfl

/-- Only `Drive` changes an output register, and only its pin's (R28). -/
theorem perform_out (op : MicroOp) (s : State) (p : Pin) : (perform op s).out p = outAfter p (s.out p) [op] := by
  cases op with
  | mode p' m => exact out_congr (by simp [perform]) p
  | drive p' v =>
    refine (out_congr (by simp [perform]) p).trans ((out_setOut s p' p (levelOf v)).trans ?_)
    simp only [outAfter, eq_comm]
  | sampleInto i => exact out_congr (by simp [perform]) p
  | delayMs n => exact out_congr (by simp [perform]) p
  | delayUs n => rfl
  | setFsm f => rfl
  | accClear => rfl
  | accToRdata => rfl
  | initDone => rfl

theorem outAfter_append (p : Pin) (l : Level) (ops ops' : List MicroOp) :
    outAfter p l (ops ++ ops') = outAfter p (outAfter p l ops) ops' := by
  induction ops generalizing l with
  | nil => rfl
  | cons op ops ih => cases op <;> exact ih _

theorem perform_fsm (op : MicroOp) (s : State) :
    (perform op s).fsm = (match op with | .setFsm f => f | _ => s.fsm) := by
  cases op <;> simp [perform]

theorem perform_initDone (op : MicroOp) (s : State) :
    (perform op s).initDone = (match op with | .initDone => true | _ => s.initDone) := by
  cases op <;> simp [perform]

/-! ### The reactions that capture a write (R78) -/

theorem weEdge_of_high {s : State} (old : Bool) (h : s.weLvl = true) : weEdge old s = s := if_neg (by simp [h])

/-- The reactions of the chain, the latch and the data pins leave a captured write as it is. -/
theorem react_pendingWrite_of_ne_we {p : Pin} (hp : p ≠ .we) (old s : State) :
    (react p old s).pendingWrite = s.pendingWrite := by
  cases p with
  | sdata => rfl
  | sclk => simp only [react]; rw [shiftEdge_eq]
  | slatch =>
    simp only [react]
    split
    · rw [latchEdge_eq]
    · rw [whileLow_eq, latchEdge_eq]
  | d i => simp only [react]; rw [whileLow_eq]
  | we => exact absurd rfl hp

/-- A capture is of an address in range (R78). -/
theorem weEdge_pendingWrite_cases (old : Bool) (s : State) :
    (weEdge old s).pendingWrite = s.pendingWrite ∨
      ∃ a d, (weEdge old s).pendingWrite = some (a, d) ∧ a.toNat < s.cfg.params.eepromSize := by
  unfold weEdge
  split
  · rcases capture_cases s with ⟨r, -, h⟩ | ⟨a, d, -, ha, h⟩
    · exact .inl (by rw [h, raise_pendingWrite])
    · exact .inr ⟨a, d, by rw [h], ha⟩
  · exact .inl rfl

theorem react_pendingWrite_cases (p : Pin) (old s : State) :
    (react p old s).pendingWrite = s.pendingWrite ∨
      ∃ a d, (react p old s).pendingWrite = some (a, d) ∧ a.toNat < s.cfg.params.eepromSize := by
  by_cases hp : p = .we
  · subst hp
    exact weEdge_pendingWrite_cases old.weLvl s
  · exact .inl (react_pendingWrite_of_ne_we hp old s)

/-- A pending write stays, is committed, or is captured in range (R34, R78, R80). -/
theorem perform_pendingWrite_cases (op : MicroOp) (s : State) :
    (perform op s).pendingWrite = s.pendingWrite ∨ (perform op s).pendingWrite = none ∨
      ∃ a d, (perform op s).pendingWrite = some (a, d) ∧ a.toNat < s.cfg.params.eepromSize := by
  cases op with
  | mode p m => exact (react_pendingWrite_cases p s ((s.setMode p m).emit (.mode p m))).imp_right .inr
  | drive p v => exact (react_pendingWrite_cases p s ((s.setOut p (levelOf v)).emit (.drive p v))).imp_right .inr
  | sampleInto i => exact .inl (sample_pendingWrite s i)
  | delayMs n =>
    rcases commit_cases (s.emit (.delayMs n)) with h | ⟨a, d, -, -, h⟩
    · exact .inl (by simp only [perform, h, emit_pendingWrite])
    · exact .inr (.inl (by simp only [perform, h]))
  | delayUs n => exact .inl rfl
  | setFsm f => exact .inl rfl
  | accClear => exact .inl rfl
  | accToRdata => exact .inl rfl
  | initDone => exact .inl rfl

/-! ### What an acceptance leaves unchanged (10_state.md R40) -/

/-- `t` is `s` after the acceptance of the word `w`, faulting or not: the event, the stale result, and every field that
no acceptance writes. The host's words are not among them, since the host's step takes one. -/
structure State.AcceptedTo (s t : State) (w : CmdWord) : Prop where
  ready : s.cmdReady = true
  cfg : t.cfg = s.cfg
  fsm : t.fsm = s.fsm
  acc : t.acc = s.acc
  rdata : t.rdata = s.rdata
  rdataValid : t.rdataValid = false
  modes : t.modes = s.modes
  outs : t.outs = s.outs
  sr : t.sr = s.sr
  q : t.q = s.q
  mem : t.mem = s.mem
  pendingWrite : t.pendingWrite = s.pendingWrite
  initDone : t.initDone = s.initDone
  draws : t.draws = s.draws
  trace : t.trace = s.trace ++ [.cmd w]

theorem exec_acceptedTo {s t : State} {i : Instr} (h : exec i s = .next t) :
    s.AcceptedTo t (encode i) ∧ t.hostCmds = s.hostCmds := by
  obtain ⟨hr, rfl | ⟨addr, -, rfl⟩⟩ := exec_cases h
  · exact ⟨by constructor <;> simp [hr], rfl⟩
  · exact ⟨by constructor <;> simp [hr], by simp⟩

theorem issueIllegal_acceptedTo {s t : State} {w : CmdWord} (h : issueIllegal w s = .next t) :
    s.AcceptedTo t w ∧ t.hostCmds = s.hostCmds := by
  obtain ⟨hr, rfl⟩ := issueIllegal_cases h
  exact ⟨by constructor <;> simp [hr], by simp⟩

/-- The host's words do not matter to what an acceptance leaves unchanged. -/
theorem State.AcceptedTo.of_withHostCmds {s t : State} {w : CmdWord} {ws : List CmdWord}
    (h : ({ s with hostCmds := ws } : State).AcceptedTo t w) : s.AcceptedTo t w :=
  ⟨h.ready, h.cfg, h.fsm, h.acc, h.rdata, h.rdataValid, h.modes, h.outs, h.sr, h.q, h.mem, h.pendingWrite, h.initDone,
    h.draws, h.trace⟩

/-- A step performs the head of `pending`, or it accepts the host's word (R20, R22, R40). -/
theorem step_performs_or_accepts {s t : State} (h : step s = .next t) :
    (∃ op rest, s.pending = op :: rest ∧ t = { perform op s with pending := rest }) ∨
      (s.pending = [] ∧ ∃ w, s.hostCmds = w :: t.hostCmds ∧ s.AcceptedTo t w) := by
  obtain ⟨-, hcore | ⟨w, ws, i, hp, hc, hd, he⟩ | ⟨w, ws, why, hp, hc, hd, he⟩⟩ := step_cases h
  · exact .inl hcore
  · obtain ⟨ht, hws⟩ := exec_acceptedTo he
    rw [encodeOfDecodeIsTheWord w i hd] at ht
    exact .inr ⟨hp, w, by rw [hc, hws], ht.of_withHostCmds⟩
  · obtain ⟨ht, hws⟩ := issueIllegal_acceptedTo he
    exact .inr ⟨hp, w, by rw [hc, hws], ht.of_withHostCmds⟩

/-! ### The array and the latch (20_memory.md section 4, section 7) -/

/-- The array's form needs only the array, the captured write and the configuration. -/
theorem State.MemInv.congr {s t : State} (h : s.MemInv) (hm : t.mem = s.mem) (hp : t.pendingWrite = s.pendingWrite)
    (hc : t.cfg = s.cfg) : t.MemInv :=
  ⟨hm ▸ h.wf, by rw [hm, hc]; exact h.inRange, by rw [hp, hc]; exact h.pendingInRange⟩

/-- Committing keeps the form because the captured cell is in range, and capturing because its check demands it. -/
theorem perform_memInv (op : MicroOp) {s : State} (h : s.MemInv) : (perform op s).MemInv := by
  have hpending : ∀ a d, (perform op s).pendingWrite = some (a, d) → a.toNat < s.cfg.params.eepromSize := by
    intro a d hp
    rcases perform_pendingWrite_cases op s with e | e | ⟨a', d', e, ha⟩
    · exact h.pendingInRange a d (e ▸ hp)
    · rw [e] at hp; cases hp
    · rw [e] at hp; cases hp; exact ha
  rcases perform_mem op s with hm | ⟨n, a, d, -, hp, -, hm, -⟩
  · exact ⟨hm ▸ h.wf, by rw [hm, perform_cfg]; exact h.inRange, by rw [perform_cfg]; exact hpending⟩
  · refine ⟨hm ▸ memWrite_wf s.mem a.toNat d h.wf, ?_, by rw [perform_cfg]; exact hpending⟩
    rw [hm, perform_cfg]
    intro c hc
    rcases mem_memWrite s.mem a.toNat d hc with rfl | hc
    · exact h.pendingInRange a d hp
    · exact h.inRange c hc

/-- Settles O53: an acceptance leaves the array and the captured write alone; each micro-operation keeps the form. -/
theorem stepKeepsTheArrayForm : Obligations.StepKeepsTheArrayForm := by
  intro s t hs h
  rcases step_performs_or_accepts h with ⟨op, rest, -, rfl⟩ | ⟨-, w, -, ht⟩
  · exact (perform_memInv op hs).congr rfl rfl rfl
  · exact hs.congr ht.mem ht.pendingWrite ht.cfg

/-- Settles O54: nothing is committed or captured at power-up. -/
theorem powerUpHasTheArrayForm : Obligations.PowerUpHasTheArrayForm := by
  intro c
  exact ⟨List.Pairwise.nil, fun c hc => absurd hc List.not_mem_nil, fun a d h => by cases h⟩

/-- Settles O51: only a commit writes the array. -/
theorem arrayChangesOnlyAtTheCommit : Obligations.ArrayChangesOnlyAtTheCommit := by
  intro s t h hne
  rcases step_performs_or_accepts h with ⟨op, rest, hp, rfl⟩ | ⟨-, w, -, ht⟩
  · rcases perform_mem op s with hm | ⟨n, a, d, rfl, hw, hl, hm, -⟩
    · exact absurd hm hne
    · exact ⟨n, rest, a, d, hp, hw, hl, hm⟩
  · exact absurd ht.mem hne

theorem react_q_of_ne_slatch {p : Pin} (hp : p ≠ .slatch) (old s : State) : (react p old s).q = s.q := by
  cases p with
  | sdata => rfl
  | sclk => simp only [react]; rw [shiftEdge_eq]
  | slatch => exact absurd rfl hp
  | d i => simp only [react]; rw [whileLow_eq]
  | we => simp only [react]; rw [weEdge_eq]

/-- A micro-operation that changes the latch is an event on SLATCH (R31, R75). -/
theorem slatch_event_of_perform_q_ne {op : MicroOp} {s : State} (h : (perform op s).q ≠ s.q) :
    (∃ v, op = .drive .slatch v) ∨ ∃ m, op = .mode .slatch m := by
  cases op with
  | mode p m =>
    by_cases hp : p = .slatch
    · exact .inr ⟨m, by rw [hp]⟩
    · exact absurd (react_q_of_ne_slatch hp s _) h
  | drive p v =>
    by_cases hp : p = .slatch
    · exact .inl ⟨v, by rw [hp]⟩
    · exact absurd (react_q_of_ne_slatch hp s _) h
  | sampleInto i => exact absurd (sample_q s i) h
  | delayMs n => exact absurd (commit_q (s.emit (.delayMs n))) h
  | delayUs n => exact absurd rfl h
  | setFsm f => exact absurd rfl h
  | accClear => exact absurd rfl h
  | accToRdata => exact absurd rfl h
  | initDone => exact absurd rfl h

/-- Settles O52: an acceptance leaves the latch alone. -/
theorem latchChangesOnlyAtSlatchEvents : Obligations.LatchChangesOnlyAtSlatchEvents := by
  intro s t h hne
  rcases step_performs_or_accepts h with ⟨op, rest, hp, rfl⟩ | ⟨-, w, -, ht⟩
  · refine ⟨rest, ?_⟩
    rw [hp]
    rcases slatch_event_of_perform_q_ne hne with ⟨v, rfl⟩ | ⟨m, rfl⟩
    · exact .inl ⟨v, rfl⟩
    · exact .inr ⟨m, rfl⟩
  · exact absurd ht.q hne

/-- Settles O50: the laws of the array's list. -/
theorem readAfterWrite : Obligations.ReadAfterWrite :=
  fun m a d hm =>
    ⟨memRead_memWrite_same m a d hm, fun b hb => memRead_memWrite_other m a b d hm hb, memWrite_repeat m a d⟩

/-! ### Steps (10_state.md R20, R22, R27, R36, R38, R44) -/

/-- Settles O17: a micro-operation appends at most its one event, an acceptance its `Cmd`. -/
theorem stepKeepsTraceConfigurationAndInitDone : Obligations.StepKeepsTraceConfigurationAndInitDone := by
  intro s t h
  rcases step_performs_or_accepts h with ⟨op, rest, -, rfl⟩ | ⟨-, w, -, ht⟩
  · refine ⟨?_, perform_cfg op s, fun hd => ?_⟩
    · have htrace := perform_trace op s
      cases he : eventOf op s with
      | none => exact .inl (by simpa [he] using htrace)
      | some e => exact .inr ⟨e, by simpa [he] using htrace⟩
    · refine (perform_initDone op s).trans ?_
      cases op <;> simp [hd]
  · exact ⟨.inr ⟨_, ht.trace⟩, ht.cfg, fun hd => ht.initDone.trans hd⟩

/-- Settles O13: the host's word is taken and decoded. -/
theorem stepRunsTheDecodedCommand : Obligations.StepRunsTheDecodedCommand := by
  intro s w ws i hf hp hc hd
  rw [step_of_hostCmds hf hp hc, hd]

/-- Settles O15: every step is from a state with no fault. -/
theorem faultedStateHasNoStep : Obligations.FaultedStateHasNoStep := by
  intro s hf t h
  obtain ⟨hf', -⟩ := step_cases h
  rw [hf] at hf'
  cases hf'

/-- Settles O14: with no fault and nothing pending the core has no step, and the host's is an acceptance. -/
theorem coreStepPerformsTheHead : Obligations.CoreStepPerformsTheHead := by
  intro s
  refine ⟨fun op rest hf hp => ?_, fun t hstop h => ?_⟩
  · rw [perform_withPending]
    exact ⟨step_of_pending hf hp, rfl⟩
  · have hp : s.pending = [] := hstop.resolve_left fun hf => faultedStateHasNoStep s hf t h
    rcases step_performs_or_accepts h with ⟨op, rest, hp', -⟩ | ⟨-, w, hc, ht⟩
    · rw [hp] at hp'; cases hp'
    · exact ⟨w, hc, ht.trace⟩

/-! ### Acceptance by a core that is ready, and by one that is not (10_state.md R40) -/

/-- The accepted state with the fields of the word of a command written out (R24, R40). -/
theorem accepted_encode (s : State) (i : Instr) (seq : List MicroOp) :
    s.accepted (encode i) seq = { s with
      trace := s.trace ++ [.cmd (encode i)], rdataValid := false, cop := defined i.opcode.code
      caddr := defined (fieldAddr (encode i)), cflag := levelOf (fieldF (encode i))
      cdata := defined (fieldData (encode i)), pending := seq } := by
  obtain ⟨hop, -, -⟩ := encode_fields i
  rw [← hop]
  rfl

/-- The fault of a READ or WRITE out of range (R40, R213): the state it is accepted in, and the record. -/
theorem issueAccess_out_of_range {s : State} {addr : Addr} (h : s.cmdReady = true)
    (ha : s.cfg.params.eepromSize ≤ addr.toNat) (i : Instr) (seq : List MicroOp) :
    issueAccess (encode i) addr seq s = .next { s with
      trace := s.trace ++ [.cmd (encode i)], rdataValid := false, cop := defined i.opcode.code
      caddr := defined (fieldAddr (encode i)), cflag := levelOf (fieldF (encode i))
      cdata := defined (fieldData (encode i)), faulted := true, fcode := faultCodeOf .addressOutOfRange
      finfo := some { word := some (encode i), event := s.trace.length, pin := none, addr := some addr } } := by
  obtain ⟨hop, -, -⟩ := encode_fields i
  obtain ⟨-, -, -, hf⟩ := (cmdReady_iff s).1 h
  rw [issueAccess, if_pos ha, if_pos h, raise_first (by exact hf), ← hop]
  simp [State.announce, State.loadCmd, State.emit]

theorem issue_notReady {s : State} (h : s.cmdReady = false) (w : CmdWord) (seq : List MicroOp) :
    issue w seq s = .refused .notReady := by
  simp [issue, h]

theorem issueAccess_notReady {s : State} (h : s.cmdReady = false) (w : CmdWord) (addr : Addr) (seq : List MicroOp) :
    issueAccess w addr seq s = .refused .notReady := by
  rw [issueAccess, issue_notReady h]
  simp [h]

/-- A ready core accepts every command, if only to fault (R40). -/
theorem exists_exec_of_ready {s : State} (h : s.cmdReady = true) (i : Instr) : ∃ t, exec i s = .next t := by
  have haccess : ∀ addr seq, ∃ t, issueAccess (encode i) addr seq s = .next t := by
    intro addr seq
    by_cases ha : addr.toNat < s.cfg.params.eepromSize
    · exact ⟨_, issueAccess_ready h ha _ _⟩
    · exact ⟨_, issueAccess_out_of_range h (Nat.not_lt.1 ha) i seq⟩
  cases i with
  | setaddr addr rw => exact ⟨_, issue_ready h _ _⟩
  | busin => exact ⟨_, issue_ready h _ _⟩
  | busout => exact ⟨_, issue_ready h _ _⟩
  | wepulse => exact ⟨_, issue_ready h _ _⟩
  | read addr => exact haccess addr _
  | write addr data => exact haccess addr _

/-- Settles O11: each of the two acceptances asks for `cmd_ready`. -/
theorem nothingIsAcceptedUnlessReady : Obligations.NothingIsAcceptedUnlessReady := by
  intro s i h
  cases i with
  | setaddr addr rw => exact issue_notReady h _ _
  | busin => exact issue_notReady h _ _
  | busout => exact issue_notReady h _ _
  | wepulse => exact issue_notReady h _ _
  | read addr => exact issueAccess_notReady h _ addr _
  | write addr data => exact issueAccess_notReady h _ addr _

/-- Settles O7: the accepted state, with the word's fields read back. -/
theorem primitiveCommandsAreAccepted : Obligations.PrimitiveCommandsAreAccepted := by
  intro s h
  have haccept : ∀ i seq, issue (encode i) seq s = _ :=
    fun i seq => (issue_ready h (encode i) seq).trans (congrArg _ (accepted_encode s i seq))
  refine ⟨fun addr rw => ?_, ?_, ?_, ?_⟩
  · refine (haccept (.setaddr addr rw) _).trans ?_
    simp [encode, Instr.opcode, Opcode.code]
  · exact haccept .busin _
  · exact haccept .busout _
  · exact haccept .wepulse _

/-- Settles O8: in range the acceptance is that of any legal word. -/
theorem cellCommandsInRangeAreAccepted : Obligations.CellCommandsInRangeAreAccepted := by
  intro s addr data h ha
  have haccept : ∀ i seq, issueAccess (encode i) addr seq s = _ :=
    fun i seq => (issueAccess_ready h ha (encode i) seq).trans (congrArg _ (accepted_encode s i seq))
  constructor
  · refine (haccept (.read addr) _).trans ?_
    simp [encode, Instr.opcode, Opcode.code, levelOf]
  · refine (haccept (.write addr data) _).trans ?_
    simp [encode, Instr.opcode, Opcode.code, levelOf]

/-- Settles O9: READ and WRITE share the fault of `issueAccess`. -/
theorem cellCommandsOutOfRangeFault : Obligations.CellCommandsOutOfRangeFault := by
  intro s i addr h ha hi
  rcases hi with rfl | ⟨data, rfl⟩
  · refine (issueAccess_out_of_range h ha (.read addr) _).trans ?_
    simp [encode, levelOf, faultCodeOf]
  · refine (issueAccess_out_of_range h ha (.write addr data) _).trans ?_
    simp [encode, levelOf, faultCodeOf]

/-- Settles O10: the event and the stale result, then the fault at that event. -/
theorem illegalWordFaults : Obligations.IllegalWordFaults := by
  intro s w ws why h hc hd
  obtain ⟨-, -, -, hf⟩ := (cmdReady_iff s).1 h
  rw [step_of_illegal hd h hc, raise_first (by exact hf)]
  simp [State.announce, State.emit, faultCodeOf]

/-- Settles O12: the frame of both answers an acceptance can give. -/
theorem acceptanceFrame : Obligations.AcceptanceFrame := by
  intro s t i h
  obtain ⟨ht, hws⟩ := exec_acceptedTo h
  obtain ⟨hop, -, -⟩ := encode_fields i
  have hcop : t.cop = defined i.opcode.code := by
    rw [← hop]
    obtain ⟨-, rfl | ⟨addr, -, rfl⟩⟩ := exec_cases h
    · rfl
    · simp
  exact ⟨⟨ht.cfg, ht.fsm, ht.acc, ht.rdata, ht.modes, ht.outs, ht.sr, ht.q, ht.pendingWrite, ht.initDone, hws,
    ht.draws⟩, fun a => by rw [ht.mem], ht.trace, ht.rdataValid, hcop⟩

/-- Settles O16: what is left when neither the core nor the host has a step. -/
theorem endedIffNoStep : Obligations.EndedIffNoStep := by
  intro s
  have hended : s.Ended = true ↔ (s.faulted = true ∨ (s.pending = [] ∧ (s.hostCmds = [] ∨ s.cmdReady = false))) := by
    simp [State.Ended]
  rw [hended]
  constructor
  · rintro (hf | ⟨hp, hstop⟩) t h
    · exact faultedStateHasNoStep s hf t h
    · rcases step_performs_or_accepts h with ⟨op, rest, hp', -⟩ | ⟨-, w, hc, ht⟩
      · rw [hp] at hp'; cases hp'
      · simp [hc, ht.ready] at hstop
  · intro hno
    by_contra! hgo
    obtain ⟨hf, hgo⟩ := hgo
    rw [ne_eq, Bool.not_eq_true] at hf
    cases hp : s.pending with
    | cons op rest => exact hno _ (step_of_pending hf hp)
    | nil =>
      obtain ⟨hc, hr⟩ := hgo hp
      rw [ne_eq, Bool.not_eq_false] at hr
      obtain ⟨w, ws, hc⟩ := List.exists_cons_of_ne_nil hc
      cases hd : decode w with
      | illegal why => exact hno _ (step_of_illegal hd hr hc)
      | cmd i =>
        obtain ⟨t, ht⟩ := exists_exec_of_ready (s := { s with hostCmds := ws }) hr i
        exact hno t ((stepRunsTheDecodedCommand s w ws i hf hp hc hd).trans ht)

end Sys2Proof.Machine

namespace Sys2Proof.Machine

/-! ### The level the EEPROM sees on WE (20_memory.md R83) -/

theorem weLvl_eq_true_iff (s : State) : s.weLvl = true ↔ s.mode .we = .input ∨ s.out .we ≠ .low := by
  cases hm : s.mode .we with
  | input => simp [State.weLvl, lvl_of_input hm]
  | output => simp [State.weLvl, lvl_of_output hm]

/-- A mode change or a drive that leaves WE high captures nothing, whatever its pin (R78). -/
theorem react_pendingWrite_of_we_high (p : Pin) (old : State) {s : State} (hw : s.weLvl = true) :
    (react p old s).pendingWrite = s.pendingWrite := by
  by_cases hp : p = .we
  · subst hp
    simp only [react, weEdge_of_high old.weLvl hw]
  · exact react_pendingWrite_of_ne_we hp old s

/-- A micro-operation after which WE is high captures nothing, and only `DelayMs` commits (R78, R80). -/
theorem perform_pendingWrite_of_we_high {op : MicroOp} (hd : ∀ n, op ≠ .delayMs n) {s : State}
    (hw : (perform op s).weLvl = true) : (perform op s).pendingWrite = s.pendingWrite := by
  cases op with
  | mode p m =>
    refine react_pendingWrite_of_we_high p s (s := (s.setMode p m).emit (.mode p m)) ?_
    exact (weLvl_congr (by simp [perform]) (by simp [perform])).symm.trans hw
  | drive p v =>
    refine react_pendingWrite_of_we_high p s (s := (s.setOut p (levelOf v)).emit (.drive p v)) ?_
    exact (weLvl_congr (by simp [perform]) (by simp [perform])).symm.trans hw
  | sampleInto i => exact sample_pendingWrite s i
  | delayMs n => exact absurd rfl (hd n)
  | delayUs n => rfl
  | setFsm f => rfl
  | accClear => rfl
  | accToRdata => rfl
  | initDone => rfl

/-! ### The write pulse (41_bus_control.md R153, R158) -/

/-- A micro-operation of a command that is no part of a write pulse: no event on WE, no delay, and of the modes only the
data pins' (R110). -/
def MicroOp.isQuiet : MicroOp → Bool
  | .mode (.d _) _ => true
  | .mode _ _ => false
  | .drive p _ => decide (p ≠ .we)
  | .sampleInto _ => true
  | .setFsm _ => true
  | .accClear => true
  | .accToRdata => true
  | .delayUs _ => false
  | .delayMs _ => false
  | .initDone => false

theorem after_of_isQuiet (c : Config) {op : MicroOp} (h : op.isQuiet = true) :
    PulsePhase.after c .high op = some .high := by
  cases op with
  | mode p m => cases p <;> simp_all [MicroOp.isQuiet, PulsePhase.after]
  | drive p v => cases p <;> simp_all [MicroOp.isQuiet, PulsePhase.after]
  | _ => simp_all [MicroOp.isQuiet, PulsePhase.after]

/-- The five ways a pending micro-operation can go on with a write pulse, or with none (R153, R158). -/
theorem after_cases {c : Config} {ph ph' : PulsePhase} {op : MicroOp} (h : ph.after c op = some ph') :
    (ph = .high ∧ ph' = .high ∧ op.isQuiet = true) ∨
    (ph = .high ∧ ph' = .low ∧ op = .drive .we false) ∨
    (ph = .low ∧ ph' = .lowTimed ∧ op = .delayUs c.params.tWpUs) ∨
    (ph = .lowTimed ∧ ph' = .settling ∧ op = .drive .we true) ∨
    (ph = .settling ∧ ph' = .high ∧ op = .delayMs c.params.tSettleMs) := by
  unfold PulsePhase.after at h
  split at h <;> simp_all [MicroOp.isQuiet]

theorem mode_of_isQuiet {op : MicroOp} (h : op.isQuiet = true) (s : State) {p : Pin} (hp : ∀ i, p ≠ .d i) :
    (perform op s).mode p = s.mode p := by
  rw [perform_mode]
  cases op with
  | mode p' m =>
    cases p' with
    | d i => exact if_neg (hp i)
    | _ => cases h
  | _ => rfl

theorem out_we_of_isQuiet {op : MicroOp} (h : op.isQuiet = true) (s : State) :
    (perform op s).out .we = s.out .we := by
  rw [perform_out]
  cases op with
  | drive p v => exact if_neg (of_decide_eq_true h)
  | _ => rfl

/-- What a pulse's micro-operation leaves of the pins' modes: WE events and delays change none. -/
theorem mode_of_after {c : Config} {ph ph' : PulsePhase} {op : MicroOp} (h : ph.after c op = some ph') (s : State)
    {p : Pin} (hp : ∀ i, p ≠ .d i) : (perform op s).mode p = s.mode p := by
  rcases after_cases h with ⟨-, -, hq⟩ | ⟨-, -, rfl⟩ | ⟨-, -, rfl⟩ | ⟨-, -, rfl⟩ | ⟨-, -, rfl⟩
  · exact mode_of_isQuiet hq s hp
  all_goals exact perform_mode _ s p

/-- `out[WE]` follows the phase (R158). -/
theorem out_we_of_after {c : Config} {ph ph' : PulsePhase} {op : MicroOp} (h : ph.after c op = some ph') {s : State}
    (hs : s.out .we = ph.weLevel) : (perform op s).out .we = ph'.weLevel := by
  rcases after_cases h with ⟨rfl, rfl, hq⟩ | ⟨rfl, rfl, rfl⟩ | ⟨rfl, rfl, rfl⟩ | ⟨rfl, rfl, rfl⟩ | ⟨rfl, rfl, rfl⟩
  · rw [out_we_of_isQuiet hq, hs]
  · exact perform_out _ s .we
  · rw [perform_out]; exact hs
  · exact perform_out _ s .we
  · rw [perform_out]; exact hs

/-- A write is pending from the falling edge of WE to the settle delay, as long as nothing faults (R78, R80, R158). -/
theorem write_of_after {c : Config} {ph ph' : PulsePhase} {op : MicroOp} (h : ph.after c op = some ph') {s : State}
    (hm : s.mode .we = .output) (ho : s.out .we = ph.weLevel) (hw : s.pendingWrite.isSome = decide (ph ≠ .high))
    (hf : (perform op s).faulted = false) : (perform op s).pendingWrite.isSome = decide (ph' ≠ .high) := by
  have hm' : (perform op s).mode .we = .output := (mode_of_after h s (by simp)).trans hm
  have ho' : (perform op s).out .we = ph'.weLevel := out_we_of_after h ho
  rcases after_cases h with ⟨rfl, rfl, hq⟩ | ⟨rfl, rfl, rfl⟩ | ⟨rfl, rfl, rfl⟩ | ⟨rfl, rfl, rfl⟩ | ⟨rfl, rfl, rfl⟩
  · rw [perform_pendingWrite_of_we_high (fun n e => by rw [e] at hq; cases hq) (weLvl_of_high hm' ho'), hw]
  · rw [perform_we_fall s hm ho] at hf ⊢
    rcases capture_cases ((s.setOut .we .low).emit (.drive .we false)) with ⟨r, -, e⟩ | ⟨a, d, -, -, e⟩
    · rw [e, raise_faulted] at hf; cases hf
    · rw [e]; rfl
  · exact hw
  · rw [perform_pendingWrite_of_we_high (by simp) (weLvl_of_high hm' ho'), hw]; rfl
  · obtain ⟨⟨a, d⟩, hp⟩ := Option.isSome_iff_exists.1 (hw.trans rfl)
    exact congrArg (fun t : State => t.pendingWrite.isSome)
      (commit_of_pending (s.emit (.delayMs c.params.tSettleMs)) a d hp (weLvl_of_high hm ho))

/-- The Cell Accessor's pending transitions, one micro-operation on (R181). -/
theorem fsmOk_perform {op : MicroOp} {rest : List MicroOp} {s : State} (h : fsmOk s.fsm (op :: rest) = true) :
    fsmOk (perform op s).fsm rest = true := by
  rw [perform_fsm]
  cases op with
  | setFsm g => exact (Bool.and_eq_true_iff.1 h).2
  | _ => exact h

/-- A step inside a command keeps the launch in its phases, unless it faults (R158, R181). -/
theorem State.RunPhase.perform {s : State} {ph : PulsePhase} {op : MicroOp} {rest : List MicroOp}
    (h : s.RunPhase ph) (hp : s.pending = op :: rest) (hf : (perform op s).faulted = false) :
    ∃ ph', ({ Machine.perform op s with pending := rest } : State).RunPhase ph' := by
  obtain ⟨hdone, ⟨hsdata, hsclk, hslatch, hwe⟩, hpulse, hlevel, hwrite, hfsm, hclkLow, hlatchLow⟩ := h
  rw [hp] at hpulse hfsm hclkLow hlatchLow
  rw [pulseOk] at hpulse
  split at hpulse
  · rename_i ph' ha
    have hmode : ∀ p, (∀ i, p ≠ .d i) → (Machine.perform op s).mode p = s.mode p := fun p => mode_of_after ha s
    have hout : ∀ p, outAfter p (s.out p) (op :: rest) = outAfter p ((Machine.perform op s).out p) rest := by
      intro p
      rw [perform_out, ← outAfter_append, List.singleton_append]
    refine ⟨ph', ?_, ⟨?_, ?_, ?_, ?_⟩, ?_, ?_, ?_, ?_, ?_, ?_⟩
    · refine (perform_initDone op s).trans ?_
      cases op <;> simp [hdone]
    · exact (hmode _ (by simp)).trans hsdata
    · exact (hmode _ (by simp)).trans hsclk
    · exact (hmode _ (by simp)).trans hslatch
    · exact (hmode _ (by simp)).trans hwe
    · exact (perform_cfg op s).symm ▸ hpulse
    · exact out_we_of_after ha hlevel
    · exact write_of_after ha hwe hlevel hwrite hf
    · exact fsmOk_perform hfsm
    · exact (hout .sclk).symm.trans hclkLow
    · exact (hout .slatch).symm.trans hlatchLow
  · cases hpulse

/-! ### INIT (70_reset_and_hazards.md R241) -/

/-- Before INIT drives WE the line is an input, and from then on it is high (R158). -/
theorem State.InitPhase.weLvl {s : State} {k : Nat} (h : s.InitPhase k) : s.weLvl = true := by
  rw [weLvl_eq_true_iff]
  by_cases hk : 1 ≤ k
  · exact .inr (by rw [h.outWe hk]; decide)
  · exact .inl (by rw [h.modeWe, if_neg (by omega)])

/-- The pins after a step of INIT (R241): each is an output, or driven, once its micro-operation is done. -/
theorem State.InitPhase.pins_after {s : State} {k : Nat} {op : MicroOp} {rest : List MicroOp} (h : s.InitPhase k)
    (hp : s.pending = op :: rest) :
    ((perform op s).mode .we = if 2 ≤ k + 1 then .output else .input) ∧
    ((perform op s).mode .sdata = if 6 ≤ k + 1 then .output else .input) ∧
    ((perform op s).mode .sclk = if 7 ≤ k + 1 then .output else .input) ∧
    ((perform op s).mode .slatch = if 8 ≤ k + 1 then .output else .input) ∧
    (perform op s).out .we = .high ∧
    (4 ≤ k + 1 → (perform op s).out .sclk = .low) ∧
    (5 ≤ k + 1 → (perform op s).out .slatch = .low) := by
  obtain ⟨hle, hpending, -, -, -, hmwe, hmsdata, hmsclk, hmslatch, howe, hosclk, hoslatch⟩ := h
  rw [hpending] at hp
  simp only [perform_mode, perform_out, hmwe, hmsdata, hmsclk, hmslatch]
  interval_cases k <;> cases hp <;> simp_all [outAfter, levelOf]

/-- A step of INIT is the next of its nine; after the last the launch is past it. -/
theorem State.InitPhase.perform {s : State} {k : Nat} {op : MicroOp} {rest : List MicroOp} (h : s.InitPhase k)
    (hp : s.pending = op :: rest) :
    ({ Machine.perform op s with pending := rest } : State).InitPhase (k + 1) ∨
      ({ Machine.perform op s with pending := rest } : State).RunPhase .high := by
  obtain ⟨hmwe, hmsdata, hmsclk, hmslatch, howe, hosclk, hoslatch⟩ := h.pins_after hp
  have hkinds : ∀ op ∈ initSeq, (∀ n, op ≠ .delayMs n) ∧ ∀ f, op ≠ .setFsm f := by simp [initSeq]
  obtain ⟨hdelay, hset⟩ := hkinds op (List.mem_of_mem_drop (i := k) (by rw [← h.pending, hp]; exact List.mem_cons_self))
  have hwrite : (Machine.perform op s).pendingWrite = none :=
    (perform_pendingWrite_of_we_high hdelay ((weLvl_eq_true_iff _).2 (.inr (by rw [howe]; decide)))).trans h.noWrite
  have hfsm : (Machine.perform op s).fsm = .idle := by
    rw [perform_fsm]
    cases op with
    | setFsm f => exact absurd rfl (hset f)
    | _ => exact h.fsm
  have hdrop : initSeq.drop k = op :: rest := h.pending.symm.trans hp
  have hrest : rest = initSeq.drop (k + 1) := by rw [← List.tail_drop, hdrop, List.tail_cons]
  obtain rfl | hk : k = 8 ∨ k < 8 := Nat.eq_or_lt_of_le h.le
  · right
    cases hdrop
    exact ⟨rfl, ⟨hmsdata, hmsclk, hmslatch, hmwe⟩, rfl, howe, by exact congrArg Option.isSome hwrite,
      by exact congrArg (fsmOk · []) hfsm, hosclk (by decide), hoslatch (by decide)⟩
  · left
    have hdone : (Machine.perform op s).initDone = false := by
      rw [perform_initDone]
      interval_cases k <;> cases hdrop <;> exact h.notDone
    exact ⟨hk, hrest, hdone, hfsm, hwrite, hmwe, hmsdata, hmsclk, hmslatch, fun _ => howe, hosclk, hoslatch⟩

/-! ### The expansions keep the launch's phases (30_encoding.md R110) -/

/-- Outside a pulse, micro-operations that are no part of one lead to no other phase. -/
theorem pulseOk_isQuiet_append (c : Config) {ops : List MicroOp} (h : ops.all MicroOp.isQuiet = true)
    (rest : List MicroOp) : pulseOk c .high (ops ++ rest) = pulseOk c .high rest := by
  induction ops with
  | nil => rfl
  | cons op ops ih =>
    obtain ⟨hop, hops⟩ := Bool.and_eq_true_iff.1 h
    rw [List.cons_append, pulseOk, after_of_isQuiet c hop]
    exact ih hops

theorem pulseOk_wePulseSeq_append (c : Config) (rest : List MicroOp) :
    pulseOk c .high (wePulseSeq c ++ rest) = pulseOk c .high rest := by
  simp [wePulseSeq, pulseOk, PulsePhase.after]

/-- Each expansion is quiet but for the one write pulse of WEPULSE and WRITE (R154, R158, R183). -/
theorem pulseOk_expansion (c : Config) (i : Instr) : pulseOk c .high (expansion c i) = true := by
  have hquiet : ∀ ops : List MicroOp, ops.all MicroOp.isQuiet = true → pulseOk c .high ops = true := by
    intro ops h
    rw [← List.append_nil ops, pulseOk_isQuiet_append c h, pulseOk]
    rfl
  cases i with
  | setaddr addr rw => exact hquiet _ rfl
  | busin => exact hquiet _ rfl
  | busout => exact hquiet _ rfl
  | wepulse =>
    rw [expansion, ← List.append_nil (wePulseSeq c), pulseOk_wePulseSeq_append, pulseOk]
    rfl
  | read addr => exact hquiet _ rfl
  | write addr data =>
    rw [expansion, writeSeq, List.append_assoc, pulseOk_isQuiet_append c (by rfl), pulseOk_wePulseSeq_append]
    exact hquiet _ rfl

theorem fsmOk_expansion (c : Config) (i : Instr) : fsmOk .idle (expansion c i) = true := by
  cases i <;> rfl

/-- Each expansion leaves SCLK and SLATCH at their idle levels (R130, R131). -/
theorem outAfter_expansion (c : Config) (i : Instr) :
    outAfter .sclk .low (expansion c i) = .low ∧ outAfter .slatch .low (expansion c i) = .low := by
  cases i <;> exact ⟨rfl, rfl⟩

/-! ### The invariant of a launch -/

/-- Past INIT with nothing pending, no write pulse is under way and the control pins are at their idle levels. -/
theorem State.RunPhase.idle_of_nil {s : State} {ph : PulsePhase} (h : s.RunPhase ph) (hp : s.pending = []) :
    ph = .high ∧ s.fsm = .idle ∧ s.out .sclk = .low ∧ s.out .slatch = .low := by
  obtain ⟨-, -, hpulse, -, -, hfsm, hclk, hlatch⟩ := h
  rw [hp] at hpulse hfsm hclk hlatch
  exact ⟨of_decide_eq_true hpulse, of_decide_eq_true hfsm, hclk, hlatch⟩

/-- A launch whose INIT is done is past it. -/
theorem State.LaunchInv.runPhase {s : State} (h : s.LaunchInv) (hf : s.faulted = false) (hd : s.initDone = true) :
    ∃ ph, s.RunPhase ph := by
  rcases h hf with ⟨k, hk⟩ | hrun
  · rw [hk.notDone] at hd; cases hd
  · exact hrun

/-- Settles O57: a ready core is past INIT with nothing pending, so outside a write pulse. -/
theorem readyLaunchIsIdle : Obligations.ReadyLaunchIsIdle := by
  intro s h hr
  obtain ⟨hd, hp, -, hf⟩ := (cmdReady_iff s).1 hr
  obtain ⟨ph, hrun⟩ := h.runPhase hf hd
  obtain ⟨rfl, -, hclk, hlatch⟩ := hrun.idle_of_nil hp
  exact ⟨hr, hrun.pins, hclk, hlatch, hrun.weLevel, Option.isNone_iff_eq_none.1 (by simpa using hrun.write)⟩

/-- Between commands, accepting one starts its expansion outside a write pulse. -/
theorem State.Idle.accepted_runPhase {s : State} (h : s.Idle) (i : Instr) :
    (s.accepted (encode i) (expansion s.cfg i)).RunPhase .high := by
  obtain ⟨hr, hpins, hclk, hlatch, hwe, hw⟩ := h
  obtain ⟨hd, -, hfsm, -⟩ := (cmdReady_iff s).1 hr
  obtain ⟨hclk', hlatch'⟩ := outAfter_expansion s.cfg i
  refine ⟨hd, ⟨hpins.sdata, hpins.sclk, hpins.slatch, hpins.we⟩, pulseOk_expansion s.cfg i, hwe, ?_, ?_, ?_, ?_⟩
  · rw [accepted_pendingWrite, hw]; rfl
  · rw [accepted_fsm, hfsm]; exact fsmOk_expansion s.cfg i
  · rw [accepted_out, hclk]; exact hclk'
  · rw [accepted_out, hlatch]; exact hlatch'

/-- The host's words are no part of the invariant. -/
theorem State.LaunchInv.withHostCmds {s : State} (h : s.LaunchInv) (ws : List CmdWord) :
    ({ s with hostCmds := ws } : State).LaunchInv := by
  intro hf
  rcases h hf with ⟨k, a, b, c, d, e, f, g, i, j, l, m, n⟩ | ⟨ph, a, ⟨b, c, d, e⟩, f, g, i, j, k, l⟩
  · exact .inl ⟨k, a, b, c, d, e, f, g, i, j, l, m, n⟩
  · exact .inr ⟨ph, a, ⟨b, c, d, e⟩, f, g, i, j, k, l⟩

/-- Settles O55: INIT's order, the phases of a pulse, and the start of an expansion are kept; a faulted state needs
nothing. -/
theorem stepKeepsTheLaunchInvariant : Obligations.StepKeepsTheLaunchInvariant := by
  intro s t hs h hf
  obtain ⟨hsf, ⟨op, rest, hp, rfl⟩ | ⟨w, ws, i, -, -, -, he⟩ | ⟨w, ws, why, -, -, -, he⟩⟩ := step_cases h
  · rcases hs hsf with ⟨k, hk⟩ | ⟨ph, hrun⟩
    · exact (hk.perform hp).imp (⟨k + 1, ·⟩) (⟨.high, ·⟩)
    · exact .inr (hrun.perform hp hf)
  · obtain ⟨hr, rfl | ⟨addr, -, rfl⟩⟩ := exec_cases he
    · exact .inr ⟨.high, (readyLaunchIsIdle _ (hs.withHostCmds ws) hr).accepted_runPhase i⟩
    · rw [raise_faulted] at hf; cases hf
  · obtain ⟨-, rfl⟩ := issueIllegal_cases he
    rw [raise_faulted] at hf; cases hf

/-- Settles O56: power-up is the first phase of INIT. -/
theorem powerUpHasTheLaunchInvariant : Obligations.PowerUpHasTheLaunchInvariant := by
  intro c _
  exact .inl ⟨0, by decide, rfl, rfl, rfl, rfl, rfl, rfl, rfl, rfl, by simp, by simp, by simp⟩

/-- Inside a pulse something is pending that goes on with it (R153). -/
theorem pulseOk_inside {c : Config} {ph : PulsePhase} {ops : List MicroOp} (h : pulseOk c ph ops = true)
    (hph : ph ≠ .high) : ∃ op rest ph', ops = op :: rest ∧ ph.after c op = some ph' ∧ pulseOk c ph' rest = true := by
  cases ops with
  | nil => exact absurd (of_decide_eq_true h) hph
  | cons op rest =>
    rw [pulseOk] at h
    split at h
    · exact ⟨op, rest, _, rfl, by assumption, h⟩
    · cases h

theorem pending_of_settling {c : Config} {ops : List MicroOp} (h : pulseOk c .settling ops = true) :
    ∃ rest, ops = .delayMs c.params.tSettleMs :: rest := by
  obtain ⟨op, rest, ph', rfl, ha, -⟩ := pulseOk_inside h (by decide)
  obtain ⟨-, rfl⟩ : ph' = .high ∧ op = .delayMs c.params.tSettleMs := by simpa using after_cases ha
  exact ⟨rest, rfl⟩

theorem pending_of_lowTimed {c : Config} {ops : List MicroOp} (h : pulseOk c .lowTimed ops = true) :
    ∃ rest, ops = .drive .we true :: .delayMs c.params.tSettleMs :: rest := by
  obtain ⟨op, rest, ph', rfl, ha, hrest⟩ := pulseOk_inside h (by decide)
  obtain ⟨rfl, rfl⟩ : ph' = .settling ∧ op = .drive .we true := by simpa using after_cases ha
  obtain ⟨rest, rfl⟩ := pending_of_settling hrest
  exact ⟨rest, rfl⟩

theorem pending_of_low {c : Config} {ops : List MicroOp} (h : pulseOk c .low ops = true) :
    ∃ rest, ops = .delayUs c.params.tWpUs :: .drive .we true :: .delayMs c.params.tSettleMs :: rest := by
  obtain ⟨op, rest, ph', rfl, ha, hrest⟩ := pulseOk_inside h (by decide)
  obtain ⟨rfl, rfl⟩ : ph' = .lowTimed ∧ op = .delayUs c.params.tWpUs := by simpa using after_cases ha
  obtain ⟨rest, rfl⟩ := pending_of_lowTimed hrest
  exact ⟨rest, rfl⟩

/-- Settles O58: `out[WE]` is the level of the phase, and the low phases' pending micro-operations are R153's. -/
theorem writeEnableIsHighOutsideThePulse : Obligations.WriteEnableIsHighOutsideThePulse := by
  intro s h hf
  constructor
  · intro hd
    obtain ⟨ph, hrun⟩ := h.runPhase hf hd
    refine ⟨hrun.pins.we, ?_⟩
    have hlevel := hrun.weLevel
    have hpulse := hrun.pulse
    cases ph with
    | high => exact .inl hlevel
    | settling => exact .inl hlevel
    | low =>
      obtain ⟨rest, hp⟩ := pending_of_low hpulse
      exact .inr ⟨hlevel, rest, .inl hp⟩
    | lowTimed =>
      obtain ⟨rest, hp⟩ := pending_of_lowTimed hpulse
      exact .inr ⟨hlevel, rest, .inr hp⟩
  · intro hd
    rcases h hf with ⟨k, hk⟩ | ⟨ph, hrun⟩
    · exact hk.weLvl
    · rw [hrun.done] at hd; cases hd

/-- In a launch with no fault the pending transitions of the Cell Accessor are those of R181; INIT has none. -/
theorem State.LaunchInv.fsmOk {s : State} (h : s.LaunchInv) (hf : s.faulted = false) :
    fsmOk s.fsm s.pending = true := by
  rcases h hf with ⟨k, hk⟩ | ⟨ph, hrun⟩
  · have hle := hk.le
    rw [hk.fsm, hk.pending]
    interval_cases k <;> rfl
  · exact hrun.fsm

/-- Settles O59: the head of `pending` moves `fsm` only along an edge, and an acceptance leaves it. -/
theorem cellAccessorTransitions : Obligations.CellAccessorTransitions := by
  intro s t hs h
  refine ⟨?_, fun hf hp => ?_⟩
  · obtain ⟨hf, -⟩ := step_cases h
    rcases step_performs_or_accepts h with ⟨op, rest, hp, rfl⟩ | ⟨-, w, -, ht⟩
    · have hok := hs.fsmOk hf
      rw [hp] at hok
      cases op with
      | setFsm f => exact .inr (Bool.and_eq_true_iff.1 hok).1
      | _ => exact .inl (perform_fsm _ s)
    · exact .inl ht.fsm
  · have hok := hs.fsmOk hf
    rw [hp] at hok
    exact of_decide_eq_true hok

end Sys2Proof.Machine

namespace Sys2Proof.Machine

/-! ### Launch (00_scope.md R7, R8, 60_exceptions.md R218) -/

/-- The twelve pin identifiers of a configuration, written out (R61). -/
theorem map_pinNumber_allPins (c : Params) :
    allPins.map c.pinNumber = [c.pinSdata, c.pinSclk, c.pinSlatch, c.pinD0, c.pinD0 + 1, c.pinD0 + 2, c.pinD0 + 3,
      c.pinD0 + 4, c.pinD0 + 5, c.pinD0 + 6, c.pinD0 + 7, c.pinWe] := rfl

/-- Settles O19: the statement's clauses are `Params.WellFormed`, in another order. -/
theorem illFormedConfigurationIsRefused : Obligations.IllFormedConfigurationIsRefused := by
  intro c
  rw [← map_pinNumber_allPins]
  constructor
  · rintro ⟨hpins, hsize, hsize', hpulse, hsettle, hpulse', hsettle'⟩
    have hwf : c.WellFormed := ⟨hpins, ⟨hsize, hsize'⟩, ⟨hpulse', hpulse⟩, ⟨hsettle', hsettle⟩⟩
    exact ⟨hwf, dif_pos hwf⟩
  · intro hnot
    refine dif_neg fun hwf : c.WellFormed => hnot ?_
    obtain ⟨hpins, ⟨hsize, hsize'⟩, ⟨hpulse', hpulse⟩, hsettle', hsettle⟩ := hwf
    exact ⟨hpins, hsize, hsize', hpulse, hsettle, hpulse', hsettle'⟩

/-! ### Levels and the two devices (10_state.md R29, 20_memory.md R74, R75, R83) -/

/-- Settles O38: the two modes of a pin, and WE's three levels. -/
theorem pinLevels : Obligations.PinLevels := by
  intro s
  refine ⟨fun p => ⟨lvl_of_output, lvl_of_input⟩, ?_, ?_, ?_⟩
  all_goals
    intro h
    simp [State.weLvl, h]

theorem shiftEdge_rise {s : State} (h : s.lvl .sclk = .high) :
    shiftEdge .low s = { s with sr := shiftIn s.sr (s.lvl .sdata) } := by
  simp [shiftEdge, h]

theorem shiftEdge_undefined {s : State} {old : Level} (hne : old ≠ s.lvl .sclk)
    (hu : old = .undef ∨ s.lvl .sclk = .undef) : shiftEdge old s = { s with sr := undefined 16 } := by
  rcases hu with rfl | hu
  · cases hl : s.lvl .sclk <;> simp_all [shiftEdge]
  · cases old <;> simp_all [shiftEdge]

theorem shiftEdge_unchanged {s : State} {old : Level} (h : old = .high ∧ s.lvl .sclk = .low ∨ old = s.lvl .sclk) :
    shiftEdge old s = s := by
  rcases h with ⟨rfl, hl⟩ | h
  · simp [shiftEdge, hl]
  · simp [shiftEdge, h]

theorem latchEdge_rise {s : State} (h : s.lvl .slatch = .high) : latchEdge .low s = { s with q := s.sr } := by
  simp [latchEdge, h]

theorem latchEdge_undefined {s : State} {old : Level} (hne : old ≠ s.lvl .slatch)
    (hu : old = .undef ∨ s.lvl .slatch = .undef) : latchEdge old s = { s with q := undefined 16 } := by
  rcases hu with rfl | hu
  · cases hl : s.lvl .slatch <;> simp_all [latchEdge]
  · cases old <;> simp_all [latchEdge]

theorem latchEdge_unchanged {s : State} {old : Level}
    (h : old = .high ∧ s.lvl .slatch = .low ∨ old = s.lvl .slatch) : latchEdge old s = s := by
  rcases h with ⟨rfl, hl⟩ | h
  · simp [latchEdge, hl]
  · simp [latchEdge, h]

/-- Settles O39: one lemma per reaction of the chain. -/
theorem shiftChainReactions : Obligations.ShiftChainReactions := by
  intro s old
  refine ⟨?_, fun hne hu => by rw [shiftEdge_undefined hne hu], shiftEdge_unchanged, shiftEdge_eq old s⟩
  rintro rfl hl
  rw [shiftEdge_rise hl]
  exact ⟨by simp, fun i => by simp⟩

/-- Settles O40: one lemma per reaction of the latch. -/
theorem outputLatchReactions : Obligations.OutputLatchReactions := by
  intro s old
  refine ⟨?_, fun hne hu => by rw [latchEdge_undefined hne hu], latchEdge_unchanged, latchEdge_eq old s⟩
  rintro rfl hl
  rw [latchEdge_rise hl]

/-! ### Faults (60_exceptions.md R211 to R213) -/

/-- Settles O46: the first fault is written, a later one is not, and the codes are R211's. -/
theorem firstFaultIsRecordedAndKept : Obligations.FirstFaultIsRecordedAndKept := by
  intro s r
  refine ⟨fun h => if_pos h, fun h => raise_first h r, fun h => ?_⟩
  rw [raise_first h]
  refine ⟨?_, ?_, ?_, ?_, ?_⟩
  all_goals
    intro hc
    rw [hc]
    rfl

theorem whileLow_of_low {s : State} (h : s.weLvl = false) (p : Pin) :
    whileLow p s = s.raise ⟨.undefinedLevel, some p, none⟩ := if_pos h

/-- The record that an event on pin `p` leaves when it may not happen while WE is low (R79, R212, R213). -/
theorem whileLow_emit {s : State} (hf : s.faulted = false) (hl : s.weLvl = false) (p : Pin) {e : Event}
    (he : ∀ w, e ≠ .cmd w) :
    whileLow p (s.emit e) = { s.emit e with
      faulted := true
      fcode := 5
      finfo := some { word := lastCmd s.trace, event := s.trace.length, pin := some p, addr := none } } := by
  rw [whileLow_of_low (by exact hl), raise_first (by exact hf)]
  simp [lastCmd_append_other _ e he, faultCodeOf]

/-- Settles O43: the pin is updated and the event appended before the fault. -/
theorem dataPinEventsWhileWeIsLowFault : Obligations.DataPinEventsWhileWeIsLowFault := by
  intro s i hf hl
  constructor
  · intro m
    have he : perform (.mode (.d i) m) s = _ :=
      whileLow_emit (s := s.setMode (.d i) m) hf ((weLvl_setMode_other s m (by simp)).trans hl) (.d i)
        (e := .mode (.d i) m) (by simp)
    refine ⟨by rw [he], by rw [he], ?_, by rw [he]; rfl, by rw [he]; rfl⟩
    rw [perform_mode]
    exact if_pos rfl
  · intro v
    have he : perform (.drive (.d i) v) s = _ :=
      whileLow_emit (s := s.setOut (.d i) (levelOf v)) hf ((weLvl_setOut_other s (levelOf v) (by simp)).trans hl) (.d i)
        (e := .drive (.d i) v) (by simp)
    refine ⟨by rw [he], by rw [he], ?_, by rw [he]; rfl, by rw [he]; rfl⟩
    rw [perform_out]
    exact if_pos rfl

/-- An event on SLATCH that changes the latch while WE is low faults, the latch already changed (R75, R79). -/
theorem react_slatch_emit {old s : State} {e : Event} (hf : s.faulted = false) (hl : s.weLvl = false)
    (he : ∀ w, e ≠ .cmd w) (hq : (react .slatch old (s.emit e)).q ≠ s.q) :
    (react .slatch old (s.emit e)).faulted = true ∧ (react .slatch old (s.emit e)).fcode = 5 ∧
    (react .slatch old (s.emit e)).trace = s.trace ++ [e] ∧
    (react .slatch old (s.emit e)).finfo
      = some { word := lastCmd s.trace, event := s.trace.length, pin := some .slatch, addr := none } := by
  obtain ⟨v, hv⟩ : ∃ v, latchEdge (old.lvl .slatch) (s.emit e) = ({ s with q := v } : State).emit e :=
    ⟨_, latchEdge_eq _ _⟩
  have hreact : react .slatch old (s.emit e) = whileLow .slatch (({ s with q := v } : State).emit e) := by
    simp only [react, hv] at hq ⊢
    split at hq
    · exact absurd (by assumption) hq
    · rw [if_neg (by assumption)]
  rw [hreact, whileLow_emit (s := { s with q := v }) hf hl .slatch he]
  exact ⟨rfl, rfl, rfl, rfl⟩

/-- Settles O44: a drive and a mode change of SLATCH, the pin updated first. -/
theorem latchChangeWhileWeIsLowFaults : Obligations.LatchChangeWhileWeIsLowFaults := by
  intro s hf hl
  constructor
  · intro v hq
    obtain ⟨hfault, hcode, htrace, hinfo⟩ := react_slatch_emit (old := s) (s := s.setOut .slatch (levelOf v)) hf
      ((weLvl_setOut_other s _ (by decide)).trans hl) (by simp) hq
    exact ⟨hfault, hcode, perform_out _ s .slatch, htrace, hinfo⟩
  · intro m hq
    obtain ⟨hfault, hcode, htrace, hinfo⟩ := react_slatch_emit (old := s) (s := s.setMode .slatch m) hf
      ((weLvl_setMode_other s m (by decide)).trans hl) (by simp) hq
    exact ⟨hfault, hcode, perform_mode _ s .slatch, htrace, hinfo⟩

/-! ### Faults at the EEPROM (20_memory.md R77, R78, R80) -/

/-- Settles O47: the event is the sample's with `⊥`, and the record names it. -/
theorem faultingSampleTracesUndefined : Obligations.FaultingSampleTracesUndefined := by
  intro s i r hf hc
  have hsample : perform (.sampleInto i) s = (s.emit (.sample (.d i) .undef)).raise r := by
    simp only [perform, sample, hc]
  rw [hsample, raise_first (by exact hf)]
  simp [lastCmd_append_other, State.emit]

theorem commit_of_none {s : State} (h : s.pendingWrite = none) : commit s = s := by
  simp only [commit, h]

theorem commit_of_we_low {s : State} (h : s.weLvl = false) : commit s = s := by
  rcases commit_cases s with hc | ⟨a, d, -, hl, -⟩
  · exact hc
  · rw [h] at hl; cases hl

/-- A sample that passes its checks finds no write pending (R77). -/
theorem sampleCheck_noWrite {s : State} {i : Fin 8} {a : Addr} (h : sampleCheck i s = .ok a) :
    s.pendingWrite = none := by
  by_contra hp
  rw [sampleCheck] at h
  repeat' split at h
  all_goals cases h

/-- A capture that passes its checks finds no write pending (R78). -/
theorem captureCheck_noWrite {s : State} {w : Addr × Byte} (h : captureCheck s = .ok w) : s.pendingWrite = none := by
  by_contra hp
  rw [captureCheck] at h
  repeat' split at h
  all_goals cases h

/-- Settles O45: the three outcomes of a commit, and the check that an access meets while a write is pending. -/
theorem settleDelayCommitsThePendingWrite : Obligations.SettleDelayCommitsThePendingWrite := by
  intro s n
  refine ⟨fun a d hp hl => commit_of_pending (s.emit (.delayMs n)) a d hp hl, fun hno => ?_,
    fun hp hf => ⟨?_, fun i => ?_⟩⟩
  · rcases hno with hp | hl
    · exact commit_of_none (s := s.emit (.delayMs n)) hp
    · exact commit_of_we_low (s := s.emit (.delayMs n)) hl
  · cases hc : captureCheck s with
    | ok w => exact absurd (captureCheck_noWrite hc) hp
    | error r => rw [capture_of_error hc, raise_faulted]
  · cases hc : sampleCheck i s with
    | ok a => exact absurd (sampleCheck_noWrite hc) hp
    | error r => rw [faultingSampleTracesUndefined s i r hf hc]

/-! ### The pin events of each command (42_cell_access.md R184) -/

theorem eventOf_length (op : MicroOp) (s : State) : (eventOf op s).toList.length = if op.isPin then 1 else 0 := by
  cases op <;> rfl

/-- Settles O37: one event for each pin micro-operation, and the parts of the expansions counted. -/
theorem pinEventCounts : Obligations.PinEventCounts := by
  refine ⟨fun op s => ?_, fun a => ⟨rfl, rfl⟩, fun c a d => ⟨rfl, rfl⟩, fun a rw => rfl, fun m => rfl, fun c => rfl,
    fun b b' => rfl, rfl, rfl, fun d => rfl, fun s t i h _ => ?_, fun s t w h => ?_⟩
  · rw [perform_trace, List.length_append, eventOf_length]
  · obtain ⟨ht, -⟩ := exec_acceptedTo h
    exact ht.trace
  · obtain ⟨ht, -⟩ := issueIllegal_acceptedTo h
    exact ht.trace

end Sys2Proof.Machine

namespace Sys2Proof.Machine

/-! ### The serializer from any level of SLATCH (40_address_serializer.md R130 to R134) -/

/-- Driving SLATCH low with WE high: the latch is kept from a defined level, and undefined from `⊥` (R75). -/
theorem perform_slatch_low_any (s : State) (hw : s.weLvl = true) :
    ∃ v, perform (.drive .slatch false) s = { (s.setOut .slatch .low).emit (.drive .slatch false) with q := v } := by
  obtain ⟨v, hv⟩ : ∃ v, latchEdge (s.lvl .slatch) ((s.setOut .slatch .low).emit (.drive .slatch false))
      = { (s.setOut .slatch .low).emit (.drive .slatch false) with q := v } := ⟨_, latchEdge_eq _ _⟩
  have hl : ({ (s.setOut .slatch .low).emit (.drive .slatch false) with q := v } : State).weLvl = true :=
    (weLvl_setOut_other s .low (by decide)).trans hw
  refine ⟨v, ?_⟩
  have hreact : perform (.drive .slatch false) s
      = react .slatch s ((s.setOut .slatch .low).emit (.drive .slatch false)) := rfl
  rw [hreact]
  simp only [react, hv, whileLow, hl]
  simp

/-- The rising edge and the end of a latch pulse: the chain is latched, whatever the latch held (R75, R131). -/
theorem performAll_latchRise (t : State) (hm : t.mode .slatch = .output) (ho : t.out .slatch = .low)
    (hw : t.weLvl = true) :
    performAll [.drive .slatch true, .drive .slatch false] t = { t with
      q := t.sr
      outs := t.outs.set 2 .low
      trace := t.trace ++ eventsOf [.drive .slatch true, .drive .slatch false] } := by
  have hrise := perform_slatch_rise t hm ho hw
  have hhigh : (perform (.drive .slatch true) t).out .slatch = .high := perform_out _ t .slatch
  have hmode : (perform (.drive .slatch true) t).mode .slatch = .output := (perform_mode _ t .slatch).trans hm
  rw [performAll_cons, performAll_cons, performAll_nil, perform_slatch_low _ hmode (by rw [hhigh]; decide), hrise]
  simp only [State.emit, State.setOut, Vector.set_set, eventsOf, List.append_assoc]
  rfl

/-- `LatchPulse` with WE high latches the chain, from any level of SLATCH (R131, R134). -/
theorem performAll_latchPulse_any (t : State) (hm : t.mode .slatch = .output) (hw : t.weLvl = true) :
    (performAll latchPulse t).sr = t.sr ∧ (performAll latchPulse t).q = t.sr ∧
      (performAll latchPulse t).faulted = t.faulted := by
  obtain ⟨v, hlow⟩ := perform_slatch_low_any t hw
  have ho : (perform (.drive .slatch false) t).out .slatch = .low := perform_out _ t .slatch
  have hmode : (perform (.drive .slatch false) t).mode .slatch = .output := (perform_mode _ t .slatch).trans hm
  have hwe : (perform (.drive .slatch false) t).weLvl = true := by
    rw [hlow]
    exact (weLvl_setOut_other t .low (by decide)).trans hw
  rw [latchPulse, performAll_cons, performAll_latchRise _ hmode ho hwe, hlow]
  exact ⟨rfl, rfl, rfl⟩

/-- The sixteen bits of an address word shifted out: the chain holds the word, whatever it held (R130, R134). -/
theorem performAll_shiftOutWord (s : State) (a : Addr) (rw : Bool) (hd : s.mode .sdata = .output)
    (hc : s.mode .sclk = .output) (ho : s.out .sclk = .low) :
    performAll ((wordBits (addrWord a rw)).flatMap shiftOutBit) s = { s with
      sr := defined (addrWord a rw)
      outs := (s.outs.set 0 (levelOf ((addrWord a rw).getLsbD 0))).set 1 .low
      trace := s.trace ++ eventsOf ((wordBits (addrWord a rw)).flatMap shiftOutBit) } := by
  have hword : ((wordBits (addrWord a rw)).map levelOf).foldl shiftIn s.sr = defined (addrWord a rw) := by
    apply foldl_shiftIn_eq_defined _ _ _ (by rfl)
    intro k hk
    have hk : k < 16 := hk
    interval_cases k <;> rfl
  have hlast : wordBits (addrWord a rw) = (wordBits (addrWord a rw)).dropLast ++ [(addrWord a rw).getLsbD 0] := rfl
  have hbits := performAll_shiftOutBits (wordBits (addrWord a rw)).dropLast ((addrWord a rw).getLsbD 0) s hd hc ho
  rw [← hlast, hword] at hbits
  exact hbits

theorem setAddressSeq_eq (a : Addr) (rw : Bool) :
    setAddressSeq a rw = (wordBits (addrWord a rw)).flatMap shiftOutBit ++ latchPulse := by
  rw [setAddressSeq, shiftOutWord_eq]

section serializer
variable {s : State} (h : s.SerializerReady) (a : Addr) (rw : Bool)
include h

/-- The state once the word is in the chain: SLATCH and WE are as they were. -/
theorem State.SerializerReady.afterShift {t : State}
    (ht : performAll ((wordBits (addrWord a rw)).flatMap shiftOutBit) s = t) :
    t.mode .slatch = .output ∧ t.out .slatch = s.out .slatch ∧ t.weLvl = true ∧ t.sr = defined (addrWord a rw) ∧
      t.faulted = false := by
  rw [performAll_shiftOutWord s a rw h.sdata h.sclk h.sclkLow] at ht
  subst ht
  refine ⟨h.slatch, ?_, ?_, rfl, h.notFaulted⟩
  · simp [State.out, pinIndex]
  · rw [← h.weHigh]
    simp [State.weLvl, State.lvl, State.mode, State.out, pinIndex]

/-- `SetAddressSeq` from any level of SLATCH (R132, R134). -/
theorem State.SerializerReady.performAll_setAddressSeq :
    (performAll (setAddressSeq a rw) s).sr = defined (addrWord a rw) ∧
    (performAll (setAddressSeq a rw) s).q = defined (addrWord a rw) ∧
    (performAll (setAddressSeq a rw) s).faulted = false := by
  obtain ⟨hm, -, hw, hsr, hf⟩ := h.afterShift a rw rfl
  obtain ⟨hsr', hq', hf'⟩ := performAll_latchPulse_any _ hm hw
  rw [setAddressSeq_eq, performAll_append]
  exact ⟨hsr'.trans hsr, hq'.trans hsr, hf'.trans hf⟩

end serializer

/-- Settles O22: the pulse latches the chain from any level of SLATCH. -/
theorem setAddressSeqReplacesEveryStage : Obligations.SetAddressSeqReplacesEveryStage := by
  intro s addr rw rest h hp
  obtain ⟨hsr, hq, hf⟩ := h.performAll_setAddressSeq addr rw
  have hrun : runSteps 51 s = _ := run_of_pending _ rest s hp hf
  generalize performAll (setAddressSeq addr rw) s = t at hsr hq hf hrun
  exact ⟨_, hrun, hsr, hq, hf, rfl⟩

/-- Bit `i` of the address lines of an address word is the address's (R101, R104). -/
theorem getLsbD_addrWord (a : Addr) (rw : Bool) (i : Fin 15) :
    (addrWord a rw).getLsbD i.val = a.getLsbD i.val := by
  have h := congrArg (fun v : Addr => v.getLsbD i.val) (addrLines_addrWord a rw)
  simpa [addrLines] using h

/-- Settles O25: the latch holds the address word, whose M and address lines are known. -/
theorem directionMaskIsTheInverseOfRw : Obligations.DirectionMaskIsTheInverseOfRw := by
  intro s addr rw rest h hp
  obtain ⟨u, hrun, -, hq, -⟩ := setAddressSeqReplacesEveryStage s addr rw rest h hp
  refine ⟨u, hrun, ?_, fun i => ?_⟩
  · simp only [hq, getElem_defined]
    exact congrArg levelOf (dirMask_addrWord addr rw)
  · simp only [hq, getElem_defined, getLsbD_addrWord]

/-! ### The events of `SetAddressSeq` one by one (R135, R136) -/

/-- Micro-operations with no event on SLATCH leave the latch as it is (R75). -/
theorem performAll_q_of_ne_slatch {ops : List MicroOp}
    (h : ∀ op ∈ ops, (∀ v, op ≠ .drive .slatch v) ∧ ∀ m, op ≠ .mode .slatch m) (s : State) :
    (performAll ops s).q = s.q := by
  induction ops generalizing s with
  | nil => rfl
  | cons op ops ih =>
    rw [List.forall_mem_cons] at h
    obtain ⟨⟨hdrive, hmode⟩, hops⟩ := h
    rw [performAll_cons, ih hops]
    by_contra hq
    rcases slatch_event_of_perform_q_ne hq with ⟨v, hv⟩ | ⟨m, hm⟩
    · exact hdrive v hv
    · exact hmode m hm

/-- Pin micro-operations append one event each (R22). -/
theorem performAll_trace_length {ops : List MicroOp} (h : ∀ op ∈ ops, op.isPin = true) (s : State) :
    (performAll ops s).trace.length = s.trace.length + ops.length := by
  induction ops generalizing s with
  | nil => rfl
  | cons op ops ih =>
    rw [List.forall_mem_cons] at h
    rw [performAll_cons, ih h.2, perform_trace, List.length_append, eventOf_length, if_pos h.1, List.length_cons]
    omega

/-- No fault in a list of micro-operations, so none in its first ones (R35). -/
theorem performAll_take_faulted {ops : List MicroOp} {s : State} (h : (performAll ops s).faulted = false) (k : Nat) :
    (performAll (ops.take k) s).faulted = false := by
  rw [← List.take_append_drop k ops, performAll_append] at h
  by_contra hf
  rw [performAll_keeps_faulted _ _ (by simpa using hf)] at h
  cases h

/-- Part of a run: the first `k` of the pending micro-operations, when all of them run with no fault. -/
theorem run_of_pending_take {ops rest : List MicroOp} {s : State} (hp : s.pending = ops ++ rest)
    (hf : (performAll ops s).faulted = false) {k : Nat} (hk : k ≤ ops.length) :
    runSteps k s = .next { performAll (ops.take k) s with pending := ops.drop k ++ rest } := by
  have h := run_of_pending (ops.take k) (ops.drop k ++ rest) s
    (by rw [← List.append_assoc, List.take_append_drop, hp]) (performAll_take_faulted hf k)
  rwa [List.length_take_of_le hk] at h

/-- The latch through a latch pulse from a defined level: the chain from its second event on (R75, R131). -/
theorem performAll_latchPulse_take {t : State} (hm : t.mode .slatch = .output) (ho : t.out .slatch ≠ .undef)
    (hw : t.weLvl = true) {j : Nat} (hj : j ≤ 3) :
    (j ≤ 1 → (performAll (latchPulse.take j) t).q = t.q) ∧ (2 ≤ j → (performAll (latchPulse.take j) t).q = t.sr) := by
  have hlow : perform (.drive .slatch false) t = _ := perform_slatch_low t hm ho
  have hrise : perform (.drive .slatch true) ((t.setOut .slatch .low).emit (.drive .slatch false)) = _ :=
    perform_slatch_rise _ hm (by rw [out_emit, out_setOut, if_pos rfl])
      ((weLvl_setOut_other t .low (by decide)).trans hw)
  interval_cases j
  · exact ⟨fun _ => rfl, by simp⟩
  · refine ⟨fun _ => ?_, by simp⟩
    show (perform (.drive .slatch false) t).q = t.q
    rw [hlow]
    rfl
  · refine ⟨by simp, fun _ => ?_⟩
    show (perform (.drive .slatch true) (perform (.drive .slatch false) t)).q = t.sr
    rw [hlow, hrise]
    rfl
  · obtain ⟨-, hq, -⟩ := performAll_latchPulse_any t hm hw
    exact ⟨by simp, fun _ => hq⟩

/-- The latch through the first `k` events of `SetAddressSeq` (R135). -/
theorem State.SerializerReady.q_take {s : State} (h : s.SerializerReady) (ho : s.out .slatch ≠ .undef) (a : Addr)
    (rw : Bool) {k : Nat} (hk : k ≤ 51) :
    (k ≤ 49 → (performAll ((setAddressSeq a rw).take k) s).q = s.q) ∧
    (50 ≤ k → (performAll ((setAddressSeq a rw).take k) s).q = defined (addrWord a rw)) := by
  have hshift : ∀ ops ⊆ (wordBits (addrWord a rw)).flatMap shiftOutBit, ∀ s, (performAll ops s).q = s.q := by
    refine fun ops hops => performAll_q_of_ne_slatch fun op hop => ?_
    obtain ⟨b, -, hb⟩ := List.mem_flatMap.1 (hops hop)
    simp only [shiftOutBit, List.mem_cons, List.not_mem_nil, or_false] at hb
    rcases hb with rfl | rfl | rfl <;> simp
  obtain ⟨hm, hslatch, hw, hsr, -⟩ := h.afterShift a rw rfl
  rw [setAddressSeq_eq]
  obtain hle | ⟨j, rfl⟩ : k ≤ 48 ∨ ∃ j, k = 48 + j := (Nat.le_total k 48).imp_right Nat.exists_eq_add_of_le
  · rw [List.take_append_of_le_length (by exact hle)]
    exact ⟨fun _ => hshift _ (List.take_subset _ _) s, by omega⟩
  · have hlen : ((wordBits (addrWord a rw)).flatMap shiftOutBit).length = 48 := rfl
    obtain ⟨hkeep, hnew⟩ := performAll_latchPulse_take hm (by rw [hslatch]; exact ho) hw (j := j) (by omega)
    rw [← hlen, List.take_length_add_append, performAll_append]
    exact ⟨fun _ => (hkeep (by omega)).trans (hshift _ (List.Subset.refl _) s), fun _ => (hnew (by omega)).trans hsr⟩

/-- Settles O23: the first `k` events, the latch by the parts they end in. -/
theorem latchChangesOnlyAtEventFifty : Obligations.LatchChangesOnlyAtEventFifty := by
  intro s addr rw rest k h ho hp hk
  obtain ⟨-, -, hf⟩ := h.performAll_setAddressSeq addr rw
  have hrun := run_of_pending_take hp hf (k := k) hk
  have hq := h.q_take ho addr rw hk
  have hpins : (setAddressSeq addr rw).all MicroOp.isPin = true := rfl
  have hlen := performAll_trace_length (ops := (setAddressSeq addr rw).take k)
    (fun op hop => List.all_eq_true.1 hpins op (List.mem_of_mem_take hop)) s
  rw [List.length_take_of_le (by exact hk)] at hlen
  generalize performAll ((setAddressSeq addr rw).take k) s = t at hrun hq hlen
  refine ⟨_, hrun, hq.1, hq.2, hlen, ?_⟩
  rintro rfl
  rfl

/-- Whole bits shifted out leave SCLK low, the pins' modes and no fault (R130). -/
theorem performAll_shiftOutBits_pins (bs : List Bool) {s : State} (hd : s.mode .sdata = .output)
    (hc : s.mode .sclk = .output) (ho : s.out .sclk = .low) :
    (performAll (bs.flatMap shiftOutBit) s).modes = s.modes ∧
    (performAll (bs.flatMap shiftOutBit) s).out .sclk = .low ∧
    (performAll (bs.flatMap shiftOutBit) s).faulted = s.faulted := by
  rcases List.eq_nil_or_concat bs with rfl | ⟨bs, b, rfl⟩
  · exact ⟨rfl, ho, rfl⟩
  · rw [List.concat_eq_append, performAll_shiftOutBits bs b s hd hc ho]
    exact ⟨rfl, by simp [State.out, pinIndex], rfl⟩

/-- The first two events of a bit: SCLK is low when its level is set, and its rising edge loads it (R74, R130). -/
theorem shiftOutBit_edge {t : State} (b : Bool) (hd : t.mode .sdata = .output) (hc : t.mode .sclk = .output)
    (ho : t.out .sclk = .low) :
    (perform (.drive .sdata b) t).lvl .sclk = .low ∧
    (perform (.drive .sclk true) (perform (.drive .sdata b) t)).lvl .sclk = .high ∧
    (perform (.drive .sclk true) (perform (.drive .sdata b) t)).sr[0] = levelOf b := by
  have hset : perform (.drive .sdata b) t = (t.setOut .sdata (levelOf b)).emit (.drive .sdata b) := rfl
  have hout : (perform (.drive .sdata b) t).out .sclk = .low := (perform_out _ t .sclk).trans ho
  have hrise := perform_sclk_rise _ (by exact hc) hout
  refine ⟨(lvl_of_output (by exact hc)).trans hout, ?_, ?_⟩
  · rw [lvl_of_output (by rw [perform_mode, perform_mode]; exact hc), perform_out]
    rfl
  · rw [hrise, getElem_shiftIn, if_pos rfl, hset, lvl_emit, lvl_setOut_same t _ hd]

theorem getElem_wordBits (w : AddrWord) (j : Nat) (hj : j < 16) : (wordBits w)[j]'hj = w.getLsbD (15 - j) := by
  interval_cases j <;> rfl

/-- The address word's bit `15 - j` stands after `j` whole bits of the shift-out (R103, R136). -/
theorem setAddressSeq_split (a : Addr) (rw : Bool) {j : Nat} (hj : j < 16) :
    ∃ (bs : List Bool) (rest : List MicroOp), bs.length = j ∧ setAddressSeq a rw =
      (bs.flatMap shiftOutBit ++ [.drive .sdata ((addrWord a rw).getLsbD (15 - j))]) ++ .drive .sclk true :: rest := by
  have hbits := List.take_append_drop j (wordBits (addrWord a rw))
  rw [← List.getElem_cons_drop (h := hj), getElem_wordBits _ j hj] at hbits
  refine ⟨(wordBits (addrWord a rw)).take j,
    .drive .sclk false :: ((wordBits (addrWord a rw)).drop (j + 1)).flatMap shiftOutBit ++ latchPulse,
    List.length_take_of_le (by exact Nat.le_of_lt hj), ?_⟩
  rw [setAddressSeq_eq]
  nth_rewrite 1 [← hbits]
  simp [shiftOutBit]

theorem length_flatMap_shiftOutBit (bs : List Bool) : (bs.flatMap shiftOutBit).length = 3 * bs.length := by
  induction bs with
  | nil => rfl
  | cons b bs ih =>
    rw [List.flatMap_cons, List.length_append, ih, List.length_cons, shiftOutBit]
    simp only [List.length_cons, List.length_nil]
    omega

/-- Bit `k` of an address word is a bit of `hi` or of `lo` (R101). -/
theorem getLsbD_addrWord_bytes (a : Addr) (rw : Bool) (k : Nat) :
    (addrWord a rw).getLsbD k = if k < 8 then (addrLo a).getLsbD k else (addrHi a rw).getLsbD (k - 8) := by
  rw [addrWord, BitVec.getLsbD_append]

/-- The core's step does not depend on what else was pending (R22). -/
theorem step_withPending {t : State} {op : MicroOp} {rest : List MicroOp} (hf : t.faulted = false) :
    step { t with pending := op :: rest } = .next { perform op t with pending := rest } := by
  rw [step_of_pending (s := { t with pending := op :: rest }) hf rfl, perform_withPending]

/-- Settles O24: after `k - 1` whole bits, the two events of the `k`-th. -/
theorem risingEdgesCarryTheWordInOrder : Obligations.RisingEdgesCarryTheWordInOrder := by
  intro s addr rw rest k h hp hk hk'
  obtain ⟨bs, ops, hlen, hsplit⟩ := setAddressSeq_split addr rw (j := k - 1) (by omega)
  rw [show 15 - (k - 1) = 16 - k by omega] at hsplit
  obtain ⟨hmodes, hout, hf⟩ := performAll_shiftOutBits_pins bs h.sdata h.sclk h.sclkLow
  obtain ⟨hlow, hhigh, hload⟩ := shiftOutBit_edge ((addrWord addr rw).getLsbD (16 - k))
    ((mode_congr hmodes .sdata).trans h.sdata) ((mode_congr hmodes .sclk).trans h.sclk) hout
  have hrun := run_of_pending (bs.flatMap shiftOutBit ++ [.drive .sdata ((addrWord addr rw).getLsbD (16 - k))])
    (.drive .sclk true :: ops ++ rest) s (by rw [hp, hsplit, List.append_assoc])
    (by rw [performAll_append]; exact hf.trans h.notFaulted)
  rw [List.length_append, length_flatMap_shiftOutBit, hlen, performAll_append, performAll_cons, performAll_nil] at hrun
  generalize performAll (bs.flatMap shiftOutBit) s = t at *
  have hstep := step_withPending (t := perform (.drive .sdata ((addrWord addr rw).getLsbD (16 - k))) t)
    (op := .drive .sclk true) (rest := ops ++ rest) (hf.trans h.notFaulted)
  refine ⟨_, _, hrun, hlow, runSteps_succ hstep, hhigh, hload, fun hle => ?_, fun hle => ?_⟩
  · rw [hload.trans (congrArg levelOf (getLsbD_addrWord_bytes addr rw (16 - k))), if_neg (by omega)]
    rw [show 16 - k - 8 = 8 - k by omega]
  · rw [hload.trans (congrArg levelOf (getLsbD_addrWord_bytes addr rw (16 - k))), if_pos (by omega)]

end Sys2Proof.Machine

namespace Sys2Proof.Machine

/-! ### The pins between commands (10_state.md R40, 41_bus_control.md R158) -/

/-- The control pins are outputs at their idle levels, and no write is pending: what `Idle` says of the devices. -/
structure State.PinsIdle (s : State) : Prop where
  pins : s.ControlPinsOut
  sclkLow : s.out .sclk = .low
  slatchLow : s.out .slatch = .low
  weHigh : s.out .we = .high
  noWrite : s.pendingWrite = none

section pinsIdle
variable {s : State}

theorem State.Idle.accepted_pinsIdle (h : s.Idle) (w : CmdWord) (seq : List MicroOp) :
    (s.accepted w seq).PinsIdle :=
  ⟨⟨h.pins.sdata, h.pins.sclk, h.pins.slatch, h.pins.we⟩, h.sclkLow, h.slatchLow, h.weHigh, h.noWrite⟩

theorem State.PinsIdle.weLvl (h : s.PinsIdle) : s.weLvl = true := weLvl_of_high h.pins.we h.weHigh

theorem State.PinsIdle.slatch_defined (h : s.PinsIdle) : s.out .slatch ≠ .undef := by rw [h.slatchLow]; decide

end pinsIdle

/-! ### SETADDR, BUSIN and BUSOUT (40_address_serializer.md R133, 41_bus_control.md R151, R152) -/

/-- Settles O21: the acceptance, and the 51 steps of the sequence in one. -/
theorem setaddrLatchesTheAddressWord : Obligations.SetaddrLatchesTheAddressWord := by
  intro s addr rw h
  obtain ⟨-, -, hfsm, hf⟩ := (cmdReady_iff s).1 h.ready
  have ht := h.accepted_pinsIdle (encode (.setaddr addr rw)) (setAddressSeq addr rw)
  have hrun := run_of_accepted _ _ (performAll_setAddressSeq _ addr rw ht.pins.sdata ht.pins.sclk ht.pins.slatch
    ht.sclkLow ht.slatch_defined ht.weLvl) hf
  have hout := getElem_addressOuts s.outs (levelOf (addr.getLsbD 0))
  refine ⟨_, _, issue_ready h.ready _ _, hrun, rfl, rfl, ⟨hout .sdata, hout .sclk, hout .slatch⟩,
    ⟨hout .we, fun i => hout (.d i)⟩, fun a => rfl, ?_⟩
  exact idle_of_idle h rfl rfl hfsm rfl (fun p _ => rfl) (hout .sclk) (hout .slatch) ((hout .we).trans h.weHigh)
    h.noWrite

/-- A bus mode switch between commands, in either direction (R150). -/
theorem State.Idle.run_busModeSeq {s : State} (h : s.Idle) (w : CmdWord) (m : PinMode) :
    ∃ u, runSteps 8 (s.accepted w (busModeSeq m)) = .next u ∧
      u = { s.accepted w (busModeSeq m) with
        pending := [], modes := u.modes, trace := (s.accepted w (busModeSeq m)).trace ++ eventsOf (busModeSeq m) } ∧
      (∀ i, u.mode (.d i) = m) ∧ (∀ p, (∀ i, p ≠ .d i) → u.mode p = s.mode p) ∧ u.Idle := by
  obtain ⟨-, -, hfsm, hf⟩ := (cmdReady_iff s).1 h.ready
  have hrun := run_of_accepted w (busModeSeq m) (performAll_busModeSeq m _ (h.accepted_pinsIdle w _).weLvl) hf
  have hdata := fun i => getElem_allDataModes m s.modes (.d i)
  have hother := getElem_dataModes_other s m
  refine ⟨_, hrun, rfl, hdata, hother, ?_⟩
  exact idle_of_idle h rfl rfl hfsm rfl hother h.sclkLow h.slatchLow h.weHigh h.noWrite

/-- Settles O26: the switch to input, which leaves the data pins undriven. -/
theorem businTurnsTheBusToInput : Obligations.BusinTurnsTheBusToInput := by
  intro s h
  obtain ⟨u, hrun, hu, hdata, hother, hidle⟩ := h.run_busModeSeq 0x20000000 .input
  refine ⟨_, u, issue_ready h.ready _ _, hrun, rfl, hu, fun i => ⟨hdata i, lvl_of_input (hdata i)⟩, hother, fun a => ?_,
    hidle⟩
  rw [hu]
  rfl

/-- Settles O27: the switch to output, which drives the registers the data pins kept. -/
theorem busoutTurnsTheBusToOutput : Obligations.BusoutTurnsTheBusToOutput := by
  intro s h
  obtain ⟨u, hrun, hu, hdata, hother, hidle⟩ := h.run_busModeSeq 0x30000000 .output
  have hout : ∀ p, u.out p = s.out p := out_congr (by rw [hu]; rfl)
  refine ⟨_, u, issue_ready h.ready _ _, hrun, rfl, hu, fun i => ⟨hdata i, (lvl_of_output (hdata i)).trans (hout _)⟩,
    hother, fun a => ?_, hidle⟩
  rw [hu]
  rfl

/-! ### WEPULSE (41_bus_control.md R154) -/

/-- The capture's checks do not look at WE, the trace or what an acceptance writes (R78). -/
theorem captureCheck_setOut_we {s t : State} (hm : t.modes = s.modes) (ho : t.outs = s.outs) (hq : t.q = s.q)
    (hp : t.pendingWrite = s.pendingWrite) (hc : t.cfg = s.cfg) (l : Level) (e : Event) :
    captureCheck ((t.setOut .we l).emit e) = captureCheck s := by
  refine captureCheck_congr_data (fun i => mode_congr hm (.d i)) (fun i => ?_) hq hp hc
  rw [out_emit, out_setOut, if_neg (by simp), out_congr ho]

/-- WEPULSE between commands, when the capture passes its checks: the byte is committed, nothing else changes. -/
theorem State.Idle.run_wePulseSeq {s : State} (h : s.Idle) (w : CmdWord) {a : Addr} {d : Byte}
    (hok : captureCheck s = .ok (a, d)) :
    runSteps 4 (s.accepted w (wePulseSeq s.cfg)) = .next { s.accepted w (wePulseSeq s.cfg) with
      pending := []
      mem := memWrite s.mem a.toNat d
      trace := (s.accepted w (wePulseSeq s.cfg)).trace ++ eventsOf (wePulseSeq s.cfg) } := by
  obtain ⟨-, -, -, hf⟩ := (cmdReady_iff s).1 h.ready
  have ht := h.accepted_pinsIdle w (wePulseSeq s.cfg)
  have hok' := (captureCheck_setOut_we (t := s.accepted w (wePulseSeq s.cfg)) rfl rfl rfl rfl rfl .low
    (.drive .we false)).trans hok
  have hrun := performAll_wePulseSeq _ a d ht.pins.we ht.weHigh hok' ht.noWrite
  rw [accepted_cfg] at hrun
  exact run_of_accepted w _ hrun hf

/-- Settles O28: the checks pass, and the byte is committed at the latched address alone. -/
theorem wepulseCommitsTheDrivenByte : Obligations.WepulseCommitsTheDrivenByte := by
  intro s w d h hmem hm hq hd hw ha
  obtain ⟨-, -, hfsm, hf⟩ := (cmdReady_iff s).1 h.ready
  have hrun := h.run_wePulseSeq 0x40000000 (captureCheck_ok hm hq hd hw ha h.noWrite)
  refine ⟨_, _, issue_ready h.ready _ _, hrun, rfl, rfl, memRead_memWrite_same s.mem _ d hmem,
    fun a hne => memRead_memWrite_other s.mem _ a d hmem hne, ?_⟩
  exact idle_of_idle h rfl rfl hfsm rfl (fun p _ => rfl) h.sclkLow h.slatchLow h.weHigh h.noWrite

/-- The falling edge of WE when a check of the capture stops it: the fault, the line left low (R78, R213). -/
theorem perform_we_fall_of_error {t : State} {r : Raise} (hm : t.mode .we = .output) (ho : t.out .we = .high)
    (hf : t.faulted = false) (herr : captureCheck ((t.setOut .we .low).emit (.drive .we false)) = .error r) :
    perform (.drive .we false) t = { t.setOut .we .low with
      trace := t.trace ++ [.drive .we false], faulted := true, fcode := faultCodeOf r.cause
      finfo := some { word := lastCmd t.trace, event := t.trace.length, pin := r.pin, addr := r.addr } } := by
  rw [perform_we_fall t hm ho, capture_of_error herr, raise_first (by exact hf)]
  simp [lastCmd_append_other, State.emit]

/-- Settles O29: the capture at the first event raises, and the rest stays pending. -/
theorem wepulseFaultsAtItsFirstEvent : Obligations.WepulseFaultsAtItsFirstEvent := by
  intro s r h herr
  obtain ⟨-, -, -, hf⟩ := (cmdReady_iff s).1 h.ready
  have ht := h.accepted_pinsIdle 0x40000000 (wePulseSeq s.cfg)
  have herr' := (captureCheck_setOut_we (t := s.accepted 0x40000000 (wePulseSeq s.cfg)) rfl rfl rfl rfl rfl .low
    (.drive .we false)).trans herr
  have hfall := perform_we_fall_of_error ht.pins.we ht.weHigh hf herr'
  have hstep := step_of_pending (s := s.accepted 0x40000000 (wePulseSeq s.cfg)) hf rfl
  rw [hfall] at hstep
  have hout := out_setOut s .we
  refine ⟨_, _, issue_ready h.ready _ _, runSteps_succ hstep, ?_, (hout .we .low).trans (if_pos rfl),
    fun p hp => (hout p .low).trans (if_neg hp)⟩
  rw [accepted_trace, lastCmd_append_cmd, List.length_append]
  rfl

end Sys2Proof.Machine

namespace Sys2Proof.Machine

/-! ### The Addressing state of a transaction (42_cell_access.md R180, R182, R183) -/

/-- `s` with the bus switched to `m` and the address word latched. -/
def State.addressed (s : State) (m : PinMode) (addr : Addr) (rw : Bool) : State :=
  { s with
    modes := withDataModes upTo7 m s.modes
    sr := defined (addrWord addr rw)
    q := defined (addrWord addr rw)
    outs := ((s.outs.set 0 (levelOf (addr.getLsbD 0))).set 1 .low).set 2 .low
    trace := s.trace ++ eventsOf (busModeSeq m ++ setAddressSeq addr rw) }

section addressed
variable (s : State) (m : PinMode) (addr : Addr) (rw : Bool)

theorem addressed_mode_data (i : Fin 8) : (s.addressed m addr rw).mode (.d i) = m :=
  getElem_allDataModes m s.modes (.d i)

theorem addressed_mode_other {p : Pin} (hp : ∀ i, p ≠ .d i) : (s.addressed m addr rw).mode p = s.mode p :=
  getElem_dataModes_other s m p hp

theorem addressed_out (p : Pin) : (s.addressed m addr rw).out p =
    (match p with
      | .sdata => levelOf (addr.getLsbD 0)
      | .sclk => .low
      | .slatch => .low
      | p => s.out p) := by
  refine (getElem_addressOuts s.outs (levelOf (addr.getLsbD 0)) p).trans ?_
  cases p <;> rfl

variable {s}

theorem State.PinsIdle.addressed (h : s.PinsIdle) : (s.addressed m addr rw).PinsIdle := by
  have hmode : ∀ p, (∀ i, p ≠ .d i) → (s.addressed m addr rw).mode p = s.mode p :=
    fun p => addressed_mode_other s m addr rw
  refine ⟨⟨?_, ?_, ?_, ?_⟩, addressed_out s m addr rw .sclk, addressed_out s m addr rw .slatch,
    (addressed_out s m addr rw .we).trans h.weHigh, h.noWrite⟩
  · exact (hmode _ (by simp)).trans h.pins.sdata
  · exact (hmode _ (by simp)).trans h.pins.sclk
  · exact (hmode _ (by simp)).trans h.pins.slatch
  · exact (hmode _ (by simp)).trans h.pins.we

theorem State.PinsIdle.performAll_addressing (h : s.PinsIdle) (f : Fsm) :
    performAll ([.setFsm f] ++ busModeSeq m ++ setAddressSeq addr rw) s
      = { s.addressed m addr rw with fsm := f } :=
  Machine.performAll_addressing s f m addr rw h.pins h.sclkLow h.slatch_defined h.weLvl

end addressed

/-! ### READ (42_cell_access.md R182) -/

/-- `s` in the Sampling state of a READ, with the accumulator cleared. -/
def State.sampling (s : State) (addr : Addr) : State :=
  { s.addressed .input addr true with fsm := .samplingRead, acc := defined 0x00#8 }

/-- `s` after a READ whose samples left `acc`, `draws` and `trace`. -/
def State.afterRead (s : State) (addr : Addr) (acc : LVec 8) (draws : Nat) (trace : List Event) : State :=
  { s.addressed .input addr true with
    fsm := .idle, acc := acc, rdata := acc, rdataValid := true, draws := draws, trace := trace }

section read
variable {s : State} (h : s.PinsIdle) (addr : Addr)
include h

/-- In the Sampling state every sample of an address in range passes its checks (R77). -/
theorem State.PinsIdle.sampleCheck_sampling (ha : addr.toNat < s.cfg.params.eepromSize) (i : Fin 8) :
    sampleCheck i (s.sampling addr) = .ok addr := by
  have hok := sampleCheck_ok (s := s.sampling addr) (w := addrWord addr true) i
    (addressed_mode_data s .input addr true) (h.addressed .input addr true).weLvl rfl (dirMask_addrWord addr true)
    (by rw [addrLines_addrWord]; exact ha) h.noWrite
  rwa [addrLines_addrWord] at hok

/-- Under the reference responder the eight samples assemble the cell's byte (R77, R156). -/
theorem State.PinsIdle.performAll_samples_reference (ha : addr.toNat < s.cfg.params.eepromSize)
    (hr : s.cfg.params.responder = .reference) :
    performAll sampleBusSeq (s.sampling addr) = { s.sampling addr with
      acc := defined (memRead s.mem addr.toNat)
      trace := (s.sampling addr).trace ++ sampleEvents (memRead s.mem addr.toNat) } := by
  have hsamples := Machine.performAll_samples_reference downFrom7 (s.sampling addr) addr hr
    (h.sampleCheck_sampling addr ha)
  rw [foldl_shiftIn_eq_defined (n := 8) _ (memRead s.mem addr.toNat) _ rfl] at hsamples
  · exact hsamples
  · intro k hk
    have hk : k < 8 := hk
    interval_cases k <;> rfl

/-- Under the unconstrained responder the eight samples are the next free draws, the first as bit 7 (R81, R156). -/
theorem State.PinsIdle.performAll_samples_unconstrained (ha : addr.toNat < s.cfg.params.eepromSize)
    (hr : s.cfg.params.responder = .unconstrained) :
    ∃ acc trace, performAll sampleBusSeq (s.sampling addr)
        = { s.sampling addr with acc := acc, draws := s.draws + 8, trace := trace } ∧
      ∀ i : Fin 8, acc[i.val] = levelOf (Config.freeDraw (s.draws + (7 - i.val))) := by
  refine ⟨_, _, Machine.performAll_samples_unconstrained downFrom7 (s.sampling addr) addr hr
    (h.sampleCheck_sampling addr ha), fun i => ?_⟩
  rw [getElem_foldl_shiftIn, dif_pos (by simp [downFrom7])]
  simp only [List.length_map, List.length_range, List.getElem_map, List.getElem_range]
  rfl

/-- Under either responder the samples touch only the accumulator, the draws and the trace (R77, R81). -/
theorem State.PinsIdle.exists_performAll_samples (ha : addr.toNat < s.cfg.params.eepromSize) :
    ∃ acc draws trace, performAll sampleBusSeq (s.sampling addr)
        = { s.sampling addr with acc := acc, draws := draws, trace := trace } ∧
      (s.cfg.params.responder = .reference → acc = defined (memRead s.mem addr.toNat)) := by
  cases hr : s.cfg.params.responder with
  | reference => exact ⟨_, _, _, h.performAll_samples_reference addr ha hr, fun _ => rfl⟩
  | unconstrained =>
    obtain ⟨acc, trace, hs, -⟩ := h.performAll_samples_unconstrained addr ha hr
    exact ⟨acc, _, trace, hs, fun hr' => by cases hr'⟩

/-- The whole of a READ, from what its samples leave. -/
theorem State.PinsIdle.performAll_readSeq {acc : LVec 8} {draws : Nat} {trace : List Event}
    (hs : performAll sampleBusSeq (s.sampling addr)
      = { s.sampling addr with acc := acc, draws := draws, trace := trace }) :
    performAll (readSeq addr) s = s.afterRead addr acc draws trace := by
  rw [readSeq, performAll_append, performAll_append, performAll_append, h.performAll_addressing]
  have hsampling : performAll [.setFsm .samplingRead, .accClear]
      { s.addressed .input addr true with fsm := .addressingRead } = s.sampling addr := rfl
  rw [hsampling, hs]
  rfl

end read

section afterRead
variable {s : State} (h : s.Idle) (w : CmdWord) (seq : List MicroOp) (addr : Addr) (acc : LVec 8) (draws : Nat)
  (trace : List Event)
include h

/-- A READ between commands, from what its samples leave. -/
theorem State.Idle.run_readSeq {acc : LVec 8} {draws : Nat} {trace : List Event}
    (hs : performAll sampleBusSeq ((s.accepted w (readSeq addr)).sampling addr)
      = { (s.accepted w (readSeq addr)).sampling addr with acc := acc, draws := draws, trace := trace }) :
    runSteps 72 (s.accepted w (readSeq addr)) =
      .next { (s.accepted w (readSeq addr)).afterRead addr acc draws trace with pending := [] } := by
  obtain ⟨-, -, -, hf⟩ := (cmdReady_iff s).1 h.ready
  exact run_of_accepted w _ ((h.accepted_pinsIdle w _).performAll_readSeq addr hs) hf

theorem State.Idle.afterRead_idle :
    ({ (s.accepted w seq).afterRead addr acc draws trace with pending := [] } : State).Idle := by
  have hp := (h.accepted_pinsIdle w seq).addressed .input addr true
  exact idle_of_idle h rfl rfl rfl rfl (fun p => addressed_mode_other s .input addr true) hp.sclkLow hp.slatchLow
    hp.weHigh hp.noWrite

end afterRead

/-- Settles O30: the samples read the cell, and the rest of the READ is the Addressing state's. -/
theorem readReturnsTheCell : Obligations.ReadReturnsTheCell := by
  intro s addr h hr ha
  obtain ⟨-, -, hfsm, -⟩ := (cmdReady_iff s).1 h.ready
  have ht := h.accepted_pinsIdle (encode (.read addr)) (readSeq addr)
  have hrun := h.run_readSeq _ addr (ht.performAll_samples_reference addr ha hr)
  have hout := addressed_out s .input addr true
  refine ⟨_, _, issueAccess_ready h.ready ha _ _, hrun, rfl, ?_, addressed_mode_data s .input addr true,
    fun p => addressed_mode_other s .input addr true, ⟨hout .sdata, hout .sclk, hout .slatch, hout .we,
    fun i => hout (.d i)⟩, fun a => rfl, h.afterRead_idle _ _ addr _ _ _⟩
  simp [State.afterRead, State.sampling, State.addressed, addrWord_read, hfsm]

/-- Settles O31: the samples are the eight draws, and the rest of the READ is the Addressing state's. -/
theorem readUnderUnconstrainedResponderReturnsTheDraws :
    Obligations.ReadUnderUnconstrainedResponderReturnsTheDraws := by
  intro s addr h hr ha
  have ht := h.accepted_pinsIdle (encode (.read addr)) (readSeq addr)
  obtain ⟨acc, trace, hs, hacc⟩ := ht.performAll_samples_unconstrained addr ha hr
  exact ⟨_, _, issueAccess_ready h.ready ha _ _, h.run_readSeq _ addr hs, hacc, rfl, rfl, fun a => rfl,
    h.afterRead_idle _ _ addr _ _ _⟩

/-! ### WRITE (42_cell_access.md R183) -/

/-- `s` in the Pulsing state of a WRITE, with the byte on the bus. -/
def State.driving (s : State) (addr : Addr) (data : Byte) : State :=
  { s.addressed .output addr false with
    fsm := .pulsingWrite
    outs := withDataOuts upTo7 data (s.addressed .output addr false).outs
    trace := (s.addressed .output addr false).trace ++ eventsOf (driveBusSeq data) }

/-- `s` after a WRITE: the byte is committed. -/
def State.afterWrite (s : State) (addr : Addr) (data : Byte) : State :=
  { s.driving addr data with
    fsm := .idle
    mem := memWrite s.mem addr.toNat data
    trace := s.trace ++ eventsOf (writeSeq s.cfg addr data) }

section write
variable (s : State) (addr : Addr) (data : Byte)

theorem driving_out (p : Pin) : (s.driving addr data).out p =
    (match p with
      | .sdata => levelOf (addr.getLsbD 0)
      | .sclk => .low
      | .slatch => .low
      | .d i => levelOf (data.getLsbD i.val)
      | .we => s.out .we) := by
  refine (getElem_allDataOuts data (s.addressed .output addr false).outs p).trans ?_
  cases p with
  | d i => rfl
  | sdata => exact addressed_out s .output addr false .sdata
  | sclk => exact addressed_out s .output addr false .sclk
  | slatch => exact addressed_out s .output addr false .slatch
  | we => exact addressed_out s .output addr false .we

variable {s} (h : s.PinsIdle)
include h

/-- In the Pulsing state of a WRITE in range the capture passes its checks (R78). -/
theorem State.PinsIdle.captureCheck_driving (ha : addr.toNat < s.cfg.params.eepromSize) :
    captureCheck (s.driving addr data) = .ok (addr, data) := by
  have hok := captureCheck_ok (s := s.driving addr data) (w := addrWord addr false) (d := data)
    (addressed_mode_data s .output addr false) rfl (fun i => driving_out s addr data (.d i))
    (dirMask_addrWord addr false) (by rw [addrLines_addrWord]; exact ha) h.noWrite
  rwa [addrLines_addrWord] at hok

/-- The whole of a WRITE in range. -/
theorem State.PinsIdle.performAll_writeSeq (ha : addr.toNat < s.cfg.params.eepromSize) :
    performAll (writeSeq s.cfg addr data) s = s.afterWrite addr data := by
  have hpins := h.addressed .output addr false
  have hdrive := performAll_driveBusSeq data { s.addressed .output addr false with fsm := .pulsingWrite } hpins.weLvl
  have hdriving : performAll (driveBusSeq data) { s.addressed .output addr false with fsm := .pulsingWrite }
      = s.driving addr data := hdrive
  have hpulse := performAll_wePulseSeq (s.driving addr data) addr data hpins.pins.we
    ((driving_out s addr data .we).trans h.weHigh)
    ((captureCheck_setOut_we rfl rfl rfl rfl rfl .low _).trans (h.captureCheck_driving addr data ha)) h.noWrite
  have hcfg : (s.driving addr data).cfg = s.cfg := rfl
  have hpulsing : performAll [.setFsm .pulsingWrite] { s.addressed .output addr false with fsm := .addressingWrite }
      = { s.addressed .output addr false with fsm := .pulsingWrite } := rfl
  rw [hcfg] at hpulse
  rw [writeSeq, performAll_append, performAll_append, performAll_append, performAll_append, h.performAll_addressing,
    hpulsing, hdriving, hpulse]
  simp [perform, State.afterWrite, State.driving, State.addressed, writeSeq, eventsOf_append, eventsOf]

end write

section afterWrite
variable {s : State} (h : s.Idle) (w : CmdWord) (addr : Addr) (data : Byte)
include h

/-- A WRITE in range between commands. -/
theorem State.Idle.run_writeSeq (ha : addr.toNat < s.cfg.params.eepromSize) :
    runSteps 74 (s.accepted w (writeSeq s.cfg addr data)) =
      .next { (s.accepted w (writeSeq s.cfg addr data)).afterWrite addr data with pending := [] } := by
  obtain ⟨-, -, -, hf⟩ := (cmdReady_iff s).1 h.ready
  have hall := (h.accepted_pinsIdle w (writeSeq s.cfg addr data)).performAll_writeSeq addr data ha
  rw [accepted_cfg] at hall
  exact run_of_accepted w _ hall hf

theorem State.Idle.afterWrite_idle (seq : List MicroOp) :
    ({ (s.accepted w seq).afterWrite addr data with pending := [] } : State).Idle := by
  have hout := driving_out (s.accepted w seq) addr data
  exact idle_of_idle h rfl rfl rfl rfl (fun p => addressed_mode_other s .output addr false) (hout .sclk) (hout .slatch)
    ((hout .we).trans h.weHigh) h.noWrite

end afterWrite

/-- Settles O32: the byte on the bus is captured and committed at the latched address. -/
theorem writeStoresTheByte : Obligations.WriteStoresTheByte := by
  intro s addr data h hmem ha
  obtain ⟨-, -, hfsm, -⟩ := (cmdReady_iff s).1 h.ready
  have hrun := h.run_writeSeq (encode (.write addr data)) addr data ha
  have hout := driving_out s addr data
  refine ⟨_, _, issueAccess_ready h.ready ha _ _, hrun, rfl, ?_, addressed_mode_data s .output addr false,
    fun p => addressed_mode_other s .output addr false,
    ⟨hout .sdata, hout .sclk, hout .slatch, (hout .we).trans h.weHigh, fun i => hout (.d i)⟩,
    memRead_memWrite_same s.mem _ data hmem, fun a hne => memRead_memWrite_other s.mem _ a data hmem hne,
    h.afterWrite_idle _ addr data _⟩
  simp [State.afterWrite, State.driving, State.addressed, addrWord_write, hfsm]

end Sys2Proof.Machine

namespace Sys2Proof.Machine

/-! ### Commands one after another from the host's port (10_state.md R39, R40, 42_cell_access.md section 4) -/

theorem State.Idle.withHostCmds {s : State} (h : s.Idle) (ws : List CmdWord) :
    ({ s with hostCmds := ws } : State).Idle :=
  ⟨h.ready, ⟨h.pins.sdata, h.pins.sclk, h.pins.slatch, h.pins.we⟩, h.sclkLow, h.slatchLow, h.weHigh, h.noWrite⟩

/-- A command run from the port: the step that accepts it, and its own steps. -/
theorem State.Idle.run_command {s t u : State} (h : s.Idle) {i : Instr} {ws : List CmdWord} {n : Nat}
    (hc : s.hostCmds = encode i :: ws) (hexec : exec i { s with hostCmds := ws } = .next t)
    (hrun : runSteps n t = .next u) : runSteps (n + 1) s = .next u := by
  obtain ⟨-, hp, -, hf⟩ := (cmdReady_iff s).1 h.ready
  have hstep := stepRunsTheDecodedCommand s (encode i) ws i hf hp hc (decodeOfEncodeIsTheCommand i)
  exact (runSteps_succ (hstep.trans hexec)).trans hrun

/-- A run of one command after another. -/
theorem runSteps_trans {s t u : State} {j k : Nat} (hj : runSteps j s = .next t) (hk : runSteps k t = .next u) :
    runSteps (j + k) s = .next u := (runSteps_add hj).trans hk

/-- With no word left, the state between commands is a good end (R44). -/
theorem State.Idle.goodEnd {s : State} (h : s.Idle) (hc : s.hostCmds = []) : s.GoodEnd = true := by
  obtain ⟨hd, hp, hfsm, hf⟩ := (cmdReady_iff s).1 h.ready
  simp [State.GoodEnd, State.Ended, hd, hp, hfsm, hf, hc, h.noWrite]

section commands
variable {s : State} (h : s.Idle) {ws : List CmdWord} {a : Addr} (ha : a.toNat < s.cfg.params.eepromSize)
include h ha

/-- A WRITE in range from the host's port: the byte is committed, and the bus drives it. -/
theorem State.Idle.run_write {d : Byte} (hc : s.hostCmds = encode (.write a d) :: ws) :
    ∃ u, runSteps 75 s = .next u ∧ u.Idle ∧ u.hostCmds = ws ∧ u.cfg = s.cfg ∧ u.mem = memWrite s.mem a.toNat d ∧
      ∀ i : Fin 8, u.mode (.d i) = .output ∧ u.out (.d i) = levelOf (d.getLsbD i.val) := by
  have h' := h.withHostCmds ws
  exact ⟨_, h.run_command hc (issueAccess_ready h'.ready ha _ _) (h'.run_writeSeq _ a d ha),
    h'.afterWrite_idle _ a d _, rfl, rfl, rfl, fun i => ⟨addressed_mode_data s .output a false i, driving_out s a d (.d i)⟩⟩

/-- A READ in range from the host's port, under either responder: the array and the data registers are kept. -/
theorem State.Idle.run_read (hc : s.hostCmds = encode (.read a) :: ws) :
    ∃ u, runSteps 73 s = .next u ∧ u.Idle ∧ u.hostCmds = ws ∧ u.cfg = s.cfg ∧ u.mem = s.mem ∧ u.rdataValid = true ∧
      (s.cfg.params.responder = .reference → u.rdata = defined (memRead s.mem a.toNat)) ∧
      ∀ i : Fin 8, u.mode (.d i) = .input ∧ u.out (.d i) = s.out (.d i) := by
  have h' := h.withHostCmds ws
  obtain ⟨acc, draws, trace, hs, hacc⟩ :=
    (h'.accepted_pinsIdle (encode (.read a)) (readSeq a)).exists_performAll_samples a ha
  exact ⟨_, h.run_command hc (issueAccess_ready h'.ready ha _ _) (h'.run_readSeq _ a hs),
    h'.afterRead_idle _ _ a _ _ _, rfl, rfl, rfl, rfl, hacc, fun i =>
      ⟨addressed_mode_data s .input a true i, addressed_out s .input a true (.d i)⟩⟩

end commands

/-- SETADDR from the host's port: the latch holds the word; the array, the bus and its registers are kept. -/
theorem State.Idle.run_setaddr {s : State} (h : s.Idle) {ws : List CmdWord} {a : Addr} {rw : Bool}
    (hc : s.hostCmds = encode (.setaddr a rw) :: ws) :
    ∃ u, runSteps 52 s = .next u ∧ u.Idle ∧ u.hostCmds = ws ∧ u.cfg = s.cfg ∧ u.mem = s.mem ∧
      u.q = defined (addrWord a rw) ∧ ∀ i : Fin 8, u.mode (.d i) = s.mode (.d i) ∧ u.out (.d i) = s.out (.d i) := by
  obtain ⟨t, u, hexec, hrun, rfl, hu, -, ⟨-, hout⟩, -, hidle⟩ :=
    setaddrLatchesTheAddressWord _ a rw (h.withHostCmds ws)
  exact ⟨u, h.run_command hc hexec hrun, hidle, (congrArg State.hostCmds hu :), (congrArg State.cfg hu :),
    (congrArg State.mem hu :), (congrArg State.q hu :),
    fun i => ⟨mode_congr (congrArg State.modes hu :) (.d i), hout i⟩⟩

/-- Settles O33: the WRITE, then the READ of the cell it wrote. -/
theorem writeThenReadReturnsTheByte : Obligations.WriteThenReadReturnsTheByte := by
  intro s a v hinv hmem hr hresp ha hc
  have h := readyLaunchIsIdle s hinv hr
  obtain ⟨u, hrun, hu, hws, hcfg, hum, -⟩ := h.run_write ha hc
  obtain ⟨t, hrun', ht, hws', -, htm, hvalid, hrdata, -⟩ := hu.run_read (by rw [hcfg]; exact ha) hws
  have hcell : memRead u.mem a.toNat = v := by rw [hum]; exact memRead_memWrite_same s.mem _ v hmem
  obtain ⟨-, -, -, hf⟩ := (cmdReady_iff t).1 ht.ready
  exact ⟨t, runSteps_trans hrun hrun', hf, (hrdata (by rw [hcfg]; exact hresp)).trans (by rw [hcell]), hvalid,
    by rw [htm]; exact hcell, ht.goodEnd hws'⟩

/-- Settles O35: the first READ leaves the array, so the second reads the same cell. -/
theorem readTwiceReturnsTheSameByte : Obligations.ReadTwiceReturnsTheSameByte := by
  intro s a hinv hr hresp ha hc
  have h := readyLaunchIsIdle s hinv hr
  obtain ⟨u, hrun, hu, hws, hcfg, hum, hvalid, hrdata, -⟩ := h.run_read ha hc
  obtain ⟨t, hrun', -, -, -, htm, hvalid', hrdata', -⟩ := hu.run_read (by rw [hcfg]; exact ha) hws
  refine ⟨u, t, hrun, hrun', hvalid, hvalid', ?_, fun c => by rw [htm, hum]⟩
  rw [hrdata hresp, hrdata' (by rw [hcfg]; exact hresp), hum]

/-- Settles O36: no command after the WRITE drives a data register. -/
theorem dataPinsKeepTheWrittenByte : Obligations.DataPinsKeepTheWrittenByte := by
  intro s a d hinv hr ha hc
  have h := readyLaunchIsIdle s hinv hr
  obtain ⟨u, hrun, hu, hws, hcfg, -, hdata⟩ := h.run_write ha hc
  obtain ⟨v, hrun', hv, hws', -, -, -, -, hdata'⟩ := hu.run_read (by rw [hcfg]; exact ha) hws
  obtain ⟨t, w, hexec, hbus, -, -, hout, -⟩ := busoutTurnsTheBusToOutput _ (hv.withHostCmds [])
  have hkept : ∀ i : Fin 8, v.out (.d i) = levelOf (d.getLsbD i.val) := fun i => ((hdata' i).2).trans (hdata i).2
  exact ⟨u, v, w, hrun, hrun', hv.run_command hws' hexec hbus, fun i => (lvl_of_output (hdata i).1).trans (hdata i).2,
    fun i => ⟨(hdata' i).1, hkept i⟩, fun i => (hout i).2.trans (hkept i)⟩

/-- Settles O34: SETADDR leaves the bus and the array, and WEPULSE commits the byte still driven. -/
theorem setaddrAndWepulseRewriteTheDrivenByte : Obligations.SetaddrAndWepulseRewriteTheDrivenByte := by
  intro s a b d hinv hmem hr ha hb hc
  have h := readyLaunchIsIdle s hinv hr
  obtain ⟨u, hrun, hu, hws, hcfg, hum, hdata⟩ := h.run_write ha hc
  obtain ⟨v, hrun', hv, hws', hcfg', hvm, hq, hdata'⟩ := hu.run_setaddr hws
  have hwf : u.mem.wf := hum ▸ memWrite_wf s.mem a.toNat d hmem
  have hpulse := wepulseCommitsTheDrivenByte _ (addrWord b false) d (hv.withHostCmds []) (by exact hvm ▸ hwf)
    (fun i => (hdata' i).1.trans (hdata i).1) hq (fun i => (hdata' i).2.trans (hdata i).2) (dirMask_addrWord b false)
    (by rw [addrLines_addrWord]; exact hcfg' ▸ hcfg ▸ hb)
  obtain ⟨t, w, hexec, hrun'', -, -, hcell, hother, hw⟩ := hpulse
  rw [addrLines_addrWord] at hcell hother
  obtain ⟨-, -, -, hf⟩ := (cmdReady_iff w).1 hw.ready
  have hother : ∀ c, c ≠ b.toNat → memRead w.mem c = memRead (memWrite s.mem a.toNat d) c := by
    intro c hcb
    rw [hother c hcb, ← hum, ← hvm]
  refine ⟨w, runSteps_trans (runSteps_trans hrun hrun') (hv.run_command hws' hexec hrun''), hf, hcell, ?_,
    fun c hca hcb => (hother c hcb).trans (memRead_memWrite_other s.mem _ c d hmem hca)⟩
  by_cases hab : a.toNat = b.toNat
  · rw [hab, hcell]
  · rw [hother _ hab, memRead_memWrite_same s.mem _ d hmem]

end Sys2Proof.Machine
